-- ==== Sys2Proof/Word.lean ====
section
/-!
DEFINITION. The word types of the block (00_scope.md R8, R13): every register, the PC, every address and every decoded
immediate is a 32-bit word; memory holds bytes; a register is named by a 5-bit field.
-/

namespace Sys2Proof

/-- A u32: 00_scope.md R8 and R13. -/
abbrev Word := BitVec 32

/-- One byte of memory: 20_memory.md R60. -/
abbrev Byte := BitVec 8

/-- The 5-bit index that names one of x0 to x31: 10_state.md R30, 30_encoding.md R90. -/
abbrev Reg := BitVec 5

end Sys2Proof
end

