-- ==== Sys2Proof/Machine/Bits.lean ====
section
/-!
DEFINITION. The Bit Utilities of 00_scope.md R2: extract a range of bits (R11), sign-extend at a position (R12), and reinterpret a
word as signed or unsigned (R13). The decoder and the executor use these.
-/

namespace Sys2Proof.Machine

/-- `extract(word, lo, hi)` of 00_scope.md R11: bits `[hi:lo]` shifted to bit 0; none (the programmer error) outside
`0 <= lo <= hi <= 31`. -/
def extract (word : Word) (lo hi : Nat) : Option Word :=
  if lo ≤ hi ∧ hi ≤ 31 then some ((word.extractLsb' lo (hi - lo + 1)).setWidth 32) else none

/-- The mask `2^n - 1` of 00_scope.md R12 and 20_memory.md R68. -/
def mask (n : Nat) : Word :=
  BitVec.ofNat 32 (2 ^ n - 1)

/-- `sext(word, p)` of 00_scope.md R12: copies of bit `p` above it, `word` as it stands where bit `p` is 0. -/
def sext (word : Word) (p : Nat) : Word :=
  if word.getLsbD p then word ||| ~~~ mask (p + 1) else word

/-- `sext_N(v)` of 00_scope.md R12, for an N-bit value. -/
def sextN {n : Nat} (v : BitVec n) : Word :=
  sext (v.setWidth 32) (n - 1)

/-- `signed(v)` of 00_scope.md section 4, the integer whose two's-complement pattern is `v`: R13. -/
def asSigned (v : Word) : Int :=
  if v.toNat < 2 ^ 31 then (v.toNat : Int) else (v.toNat : Int) - 2 ^ 32

/-- The u32 pattern of an integer: 00_scope.md R13. -/
def asUnsigned (x : Int) : Word :=
  BitVec.ofInt 32 x

end Sys2Proof.Machine
end

