-- ==== Sys2Proof/Machine/Flags.lean ====
section
/-!
DEFINITION. The block has no flag and no condition code (10_state.md R49). This file holds what stands in their place: the
comparisons of 00_scope.md section 4, which the SLT family writes as 0 or 1 and the branches test (40_integer_computational.md R153).
-/

namespace Sys2Proof.Machine

/-- `a <s b`: `signed(a) < signed(b)` (00_scope.md section 4, R13). -/
def ltSigned (a b : Word) : Bool :=
  decide (asSigned a < asSigned b)

/-- `a <u b`: `unsigned(a) < unsigned(b)` (00_scope.md section 4). -/
def ltUnsigned (a b : Word) : Bool :=
  decide (a.toNat < b.toNat)

/-- `bool(c)`: the u32 value 1 if the condition holds, else 0 (00_scope.md section 4). -/
def boolWord (c : Bool) : Word :=
  if c then 1#32 else 0#32

end Sys2Proof.Machine
end

