-- ==== Sys2Proof/Machine/Raise.lean ====
section
/-!
DEFINITION. Why a step halts the block: the halt causes with their codes (60_exceptions.md R222), the error kinds with what each
records in `info` (R221), and the host's reading of a cause as an exit status (R225).
-/

namespace Sys2Proof.Machine

/-- The values of the register `cause`, 60_exceptions.md R222. -/
inductive HaltCause where
  | none | exhausted | unknownOpcode | invalidEncoding | outOfRangeMemory | invalidSize | misalignedJump | duplicateRegistration
  deriving DecidableEq, Repr

/-- The code of a cause, 60_exceptions.md R222. The numbers are the spec's own (92_eei_decisions.md D16). -/
def HaltCause.code : HaltCause → Nat
  | .none => 0
  | .exhausted => 1
  | .unknownOpcode => 2
  | .invalidEncoding => 3
  | .outOfRangeMemory => 4
  | .invalidSize => 5
  | .misalignedJump => 6
  | .duplicateRegistration => 7

/-- The error kinds of 60_exceptions.md R221, each with the value it records. -/
inductive Raise where
  | unknownOpcode (word : Word)
  | invalidEncoding (word : Word)
  | outOfRangeMemory (addr : Word)
  | invalidSize
  | duplicateRegistration
  | misalignedJump (target : Word)
  deriving DecidableEq, Repr

/-- The `cause` that `raise K(v)` records: 60_exceptions.md R223. -/
def Raise.cause : Raise → HaltCause
  | .unknownOpcode _ => .unknownOpcode
  | .invalidEncoding _ => .invalidEncoding
  | .outOfRangeMemory _ => .outOfRangeMemory
  | .invalidSize => .invalidSize
  | .duplicateRegistration => .duplicateRegistration
  | .misalignedJump _ => .misalignedJump

/-- The `info` that `raise K(v)` records: 60_exceptions.md R221, R223. The two kinds that are never produced record "(none)"
there: 0 is a DESIGN CHOICE that no run shows (log entry 9). -/
def Raise.info : Raise → Word
  | .unknownOpcode word => word
  | .invalidEncoding word => word
  | .outOfRangeMemory addr => addr
  | .invalidSize => 0#32
  | .duplicateRegistration => 0#32
  | .misalignedJump target => target

/-- The exit code of the host, as far as the spec gives it: zero or not zero (60_exceptions.md R225,
93_implementation_defined.md U13). -/
inductive ExitStatus where
  | zero | nonzero
  deriving DecidableEq, Repr

/-- How the host maps a halt cause (60_exceptions.md R225); no status while the block is Running. -/
def HaltCause.exitStatus : HaltCause → Option ExitStatus
  | .none => Option.none
  | .exhausted => some .zero
  | .unknownOpcode => some .nonzero
  | .invalidEncoding => some .nonzero
  | .outOfRangeMemory => some .nonzero
  | .invalidSize => some .nonzero
  | .misalignedJump => some .nonzero
  | .duplicateRegistration => some .nonzero

end Sys2Proof.Machine
end

