-- ==== Sys2Proof/Syntax.lean ====
section
/-!
DEFINITION. The instruction record of the decoder (30_encoding.md R98) and the instructions of spec/opcode_table.json, one
constructor a row. Immediates stand in their final u32 value, as the decoder leaves them (R92 to R97).
-/

namespace Sys2Proof

/-- The format tags of the opcode table (30_encoding.md R100); `reserved` is the tag of opcode 15. -/
inductive Format where
  | r | i | s | b | u | j | reserved
  deriving DecidableEq, Repr

/-- The decoder's output, "a tagged variant over six formats" (30_encoding.md R98), fields in the order of the rule. -/
inductive Record where
  | r (funct7 : BitVec 7) (rs2 rs1 : Reg) (funct3 : BitVec 3) (rd : Reg) (opcode : BitVec 7)
  | i (imm : Word) (rs1 : Reg) (funct3 : BitVec 3) (rd : Reg) (opcode : BitVec 7)
  | s (imm : Word) (rs2 rs1 : Reg) (funct3 : BitVec 3) (opcode : BitVec 7)
  | b (imm : Word) (rs2 rs1 : Reg) (funct3 : BitVec 3) (opcode : BitVec 7)
  | u (imm : Word) (rd : Reg) (opcode : BitVec 7)
  | j (imm : Word) (rd : Reg) (opcode : BitVec 7)
  deriving DecidableEq, Repr

/-- The instructions: the 37 of 00_scope.md R3 and the two groups that only halt (43_misc_mem_system.md). -/
inductive Instr where
  -- OP-IMM (40_integer_computational.md section 1)
  | addi (rd rs1 : Reg) (imm : Word)
  | slti (rd rs1 : Reg) (imm : Word)
  | sltiu (rd rs1 : Reg) (imm : Word)
  | xori (rd rs1 : Reg) (imm : Word)
  | ori (rd rs1 : Reg) (imm : Word)
  | andi (rd rs1 : Reg) (imm : Word)
  | slli (rd rs1 : Reg) (shamt : BitVec 5)
  | srli (rd rs1 : Reg) (shamt : BitVec 5)
  | srai (rd rs1 : Reg) (shamt : BitVec 5)
  -- OP (section 2)
  | add (rd rs1 rs2 : Reg)
  | sub (rd rs1 rs2 : Reg)
  | sll (rd rs1 rs2 : Reg)
  | slt (rd rs1 rs2 : Reg)
  | sltu (rd rs1 rs2 : Reg)
  | xor (rd rs1 rs2 : Reg)
  | srl (rd rs1 rs2 : Reg)
  | sra (rd rs1 rs2 : Reg)
  | or (rd rs1 rs2 : Reg)
  | and (rd rs1 rs2 : Reg)
  -- upper immediates (section 3)
  | lui (rd : Reg) (imm : Word)
  | auipc (rd : Reg) (imm : Word)
  -- jumps (41_control_transfer.md section 2)
  | jal (rd : Reg) (imm : Word)
  | jalr (rd rs1 : Reg) (imm : Word)
  -- branches (section 3)
  | beq (rs1 rs2 : Reg) (imm : Word)
  | bne (rs1 rs2 : Reg) (imm : Word)
  | blt (rs1 rs2 : Reg) (imm : Word)
  | bge (rs1 rs2 : Reg) (imm : Word)
  | bltu (rs1 rs2 : Reg) (imm : Word)
  | bgeu (rs1 rs2 : Reg) (imm : Word)
  -- loads (42_load_store.md section 2)
  | lb (rd rs1 : Reg) (imm : Word)
  | lh (rd rs1 : Reg) (imm : Word)
  | lw (rd rs1 : Reg) (imm : Word)
  | lbu (rd rs1 : Reg) (imm : Word)
  | lhu (rd rs1 : Reg) (imm : Word)
  -- stores (section 3): rs1 is the base, rs2 the value
  | sb (rs2 rs1 : Reg) (imm : Word)
  | sh (rs2 rs1 : Reg) (imm : Word)
  | sw (rs2 rs1 : Reg) (imm : Word)
  -- the two groups of 43_misc_mem_system.md: opcode 15 has no record, so it keeps its word; opcode 115 is an I record
  | miscMem (word : Word)
  | system (imm : Word) (rs1 : Reg) (funct3 : BitVec 3) (rd : Reg)
  deriving DecidableEq, Repr

end Sys2Proof
end

