-- ==== Sys2Proof/WellFormed.lean ====
section
/-!
DEFINITION. Which instructions an encoding can hold: the range of each immediate (30_encoding.md R92 to R97) and, for a MISC-MEM
word, its opcode (43_misc_mem_system.md R210). Register numbers, shift amounts and function fields are right by their widths.
-/

namespace Sys2Proof

/-- The range of an I or S immediate, -2048 to 2047: 30_encoding.md R92, R93. -/
abbrev imm12InRange (imm : Word) : Prop :=
  -2048 ≤ imm.toInt ∧ imm.toInt ≤ 2047

/-- The range of a B immediate, -4096 to 4094, even values only: 30_encoding.md R94. -/
abbrev imm13InRange (imm : Word) : Prop :=
  -4096 ≤ imm.toInt ∧ imm.toInt ≤ 4094 ∧ imm.toInt % 2 = 0

/-- A U immediate has its low 12 bits zero: 30_encoding.md R96. -/
abbrev immUpperInRange (imm : Word) : Prop :=
  imm.toNat % 4096 = 0

/-- The range of a J immediate, -1048576 to 1048574, even values only: 30_encoding.md R97. -/
abbrev imm21InRange (imm : Word) : Prop :=
  -1048576 ≤ imm.toInt ∧ imm.toInt ≤ 1048574 ∧ imm.toInt % 2 = 0

/-- The immediate of a record is in the range of its format (30_encoding.md R107). -/
def Record.wf : Record → Bool
  | .r _ _ _ _ _ _ => true
  | .i imm _ _ _ _ => decide (imm12InRange imm)
  | .s imm _ _ _ _ => decide (imm12InRange imm)
  | .b imm _ _ _ _ => decide (imm13InRange imm)
  | .u imm _ _ => decide (immUpperInRange imm)
  | .j imm _ _ => decide (imm21InRange imm)

/-- An instruction that some word encodes. -/
def Instr.wf : Instr → Bool
  | .addi _ _ imm => decide (imm12InRange imm)
  | .slti _ _ imm => decide (imm12InRange imm)
  | .sltiu _ _ imm => decide (imm12InRange imm)
  | .xori _ _ imm => decide (imm12InRange imm)
  | .ori _ _ imm => decide (imm12InRange imm)
  | .andi _ _ imm => decide (imm12InRange imm)
  | .slli _ _ _ => true
  | .srli _ _ _ => true
  | .srai _ _ _ => true
  | .add _ _ _ => true
  | .sub _ _ _ => true
  | .sll _ _ _ => true
  | .slt _ _ _ => true
  | .sltu _ _ _ => true
  | .xor _ _ _ => true
  | .srl _ _ _ => true
  | .sra _ _ _ => true
  | .or _ _ _ => true
  | .and _ _ _ => true
  | .lui _ imm => decide (immUpperInRange imm)
  | .auipc _ imm => decide (immUpperInRange imm)
  | .jal _ imm => decide (imm21InRange imm)
  | .jalr _ _ imm => decide (imm12InRange imm)
  | .beq _ _ imm => decide (imm13InRange imm)
  | .bne _ _ imm => decide (imm13InRange imm)
  | .blt _ _ imm => decide (imm13InRange imm)
  | .bge _ _ imm => decide (imm13InRange imm)
  | .bltu _ _ imm => decide (imm13InRange imm)
  | .bgeu _ _ imm => decide (imm13InRange imm)
  | .lb _ _ imm => decide (imm12InRange imm)
  | .lh _ _ imm => decide (imm12InRange imm)
  | .lw _ _ imm => decide (imm12InRange imm)
  | .lbu _ _ imm => decide (imm12InRange imm)
  | .lhu _ _ imm => decide (imm12InRange imm)
  | .sb _ _ imm => decide (imm12InRange imm)
  | .sh _ _ imm => decide (imm12InRange imm)
  | .sw _ _ imm => decide (imm12InRange imm)
  | .miscMem word => word.extractLsb' 0 7 == 0x0F#7
  | .system imm _ _ _ => decide (imm12InRange imm)

end Sys2Proof
end

