-- ==== Sys2Proof/Decode.lean ====
section
/-!
DEFINITION. Decode, total on every word (30_encoding.md R89 to R106), and the encoder of R107. `decodeRecord` is the Decoder's
`Decode(word)` of R101; `select` is the instruction selection of R103; `decode` is the two together. `encode` writes the words back.
-/

namespace Sys2Proof

open Machine

/-! ## Fields and immediates -/

/-- `opcode = word[6:0]`: 30_encoding.md R90. -/
def fieldOpcode (w : Word) : BitVec 7 := w.extractLsb' 0 7

/-- `rd = word[11:7]`: R90. -/
def fieldRd (w : Word) : Reg := w.extractLsb' 7 5

/-- `funct3 = word[14:12]`: R90. -/
def fieldFunct3 (w : Word) : BitVec 3 := w.extractLsb' 12 3

/-- `rs1 = word[19:15]`: R90. -/
def fieldRs1 (w : Word) : Reg := w.extractLsb' 15 5

/-- `rs2 = word[24:20]`: R90. -/
def fieldRs2 (w : Word) : Reg := w.extractLsb' 20 5

/-- `funct7 = word[31:25]`: R90. -/
def fieldFunct7 (w : Word) : BitVec 7 := w.extractLsb' 25 7

/-- The I immediate, `sext_12(word[31:20])`: R92. -/
def immI (w : Word) : Word :=
  sextN (w.extractLsb' 20 12 : BitVec 12)

/-- The S immediate, `sext_12(word[31:25] ++ word[11:7])`: R93. -/
def immS (w : Word) : Word :=
  sextN (w.extractLsb' 25 7 ++ w.extractLsb' 7 5 : BitVec 12)

/-- The B immediate, `sext_13(word[31] ++ word[7] ++ word[30:25] ++ word[11:8] ++ 0b0)`: R94. -/
def immB (w : Word) : Word :=
  sextN (w.extractLsb' 31 1 ++ w.extractLsb' 7 1 ++ w.extractLsb' 25 6 ++ w.extractLsb' 8 4 ++ 0#1 : BitVec 13)

/-- The U immediate, `word[31:12] ++ 0^12`: R96. -/
def immU (w : Word) : Word :=
  (w.extractLsb' 12 20 ++ 0#12 : BitVec 32)

/-- The J immediate, `sext_21(word[31] ++ word[19:12] ++ word[20] ++ word[30:21] ++ 0b0)`: R97. -/
def immJ (w : Word) : Word :=
  sextN (w.extractLsb' 31 1 ++ w.extractLsb' 12 8 ++ w.extractLsb' 20 1 ++ w.extractLsb' 21 10 ++ 0#1 : BitVec 21)

/-! ## The opcode table -/

/-- The decoder's mapping from opcode to format tag: 30_encoding.md R100. -/
abbrev FormatTable := List (BitVec 7 × Format)

/-- One registration; an opcode already in the table fails with duplicate-registration: R100. -/
def registerOpcode (t : FormatTable) (op : BitVec 7) (f : Format) : Except Raise FormatTable :=
  if (t.lookup op).isSome then .error .duplicateRegistration else .ok (t ++ [(op, f)])

/-- Registration of a list of entries in order. -/
def registerAll : List (BitVec 7 × Format) → FormatTable → Except Raise FormatTable
  | [], t => .ok t
  | (op, f) :: rest, t =>
    match registerOpcode t op f with
    | .ok t' => registerAll rest t'
    | .error r => .error r

/-- The eleven entries of R100, fixed like a ROM. -/
def baseTable : FormatTable :=
  [(0x03#7, .i), (0x0F#7, .reserved), (0x13#7, .i), (0x17#7, .u), (0x23#7, .s), (0x33#7, .r), (0x37#7, .u), (0x63#7, .b), (0x67#7, .i), (0x6F#7, .j),
   (0x73#7, .i)]

/-- `register_base_iset()`: R100, from "an initially empty mapping". -/
def registerBaseIset : Except Raise FormatTable :=
  registerAll baseTable []

/-- The format of an opcode, none where the table lacks it: R101. -/
def formatOf (op : BitVec 7) : Option Format :=
  baseTable.lookup op

/-! ## Decode -/

/-- `Decode(word)` of 30_encoding.md R101, with the field extraction of R99. -/
def decodeRecord (w : Word) : Except Raise Record :=
  match formatOf (fieldOpcode w) with
  | none => .error (.unknownOpcode w)
  | some .r => .ok (.r (fieldFunct7 w) (fieldRs2 w) (fieldRs1 w) (fieldFunct3 w) (fieldRd w) (fieldOpcode w))
  | some .i => .ok (.i (immI w) (fieldRs1 w) (fieldFunct3 w) (fieldRd w) (fieldOpcode w))
  | some .s => .ok (.s (immS w) (fieldRs2 w) (fieldRs1 w) (fieldFunct3 w) (fieldOpcode w))
  | some .b => .ok (.b (immB w) (fieldRs2 w) (fieldRs1 w) (fieldFunct3 w) (fieldOpcode w))
  | some .u => .ok (.u (immU w) (fieldRd w) (fieldOpcode w))
  | some .j => .ok (.j (immJ w) (fieldRd w) (fieldOpcode w))
  | some .reserved => .error (.invalidEncoding w)

/-- The OP row of 30_encoding.md R103. -/
def selectOp (w : Word) (f7 : BitVec 7) (f3 : BitVec 3) (rd rs1 rs2 : Reg) : Except Raise Instr :=
  if f7 = 0#7 then
    if f3 = 0#3 then .ok (.add rd rs1 rs2)
    else if f3 = 1#3 then .ok (.sll rd rs1 rs2)
    else if f3 = 2#3 then .ok (.slt rd rs1 rs2)
    else if f3 = 3#3 then .ok (.sltu rd rs1 rs2)
    else if f3 = 4#3 then .ok (.xor rd rs1 rs2)
    else if f3 = 5#3 then .ok (.srl rd rs1 rs2)
    else if f3 = 6#3 then .ok (.or rd rs1 rs2)
    else if f3 = 7#3 then .ok (.and rd rs1 rs2)
    else .error (.invalidEncoding w)
  else if f7 = 32#7 then
    if f3 = 0#3 then .ok (.sub rd rs1 rs2)
    else if f3 = 5#3 then .ok (.sra rd rs1 rs2)
    else .error (.invalidEncoding w)
  else .error (.invalidEncoding w)

/-- The OP-IMM row of R103; the shifts go by the key `(funct3, imm[11:5])` of R104, with `shamt = imm[4:0]`. -/
def selectOpImm (w : Word) (f3 : BitVec 3) (rd rs1 : Reg) (imm : Word) : Except Raise Instr :=
  if f3 = 0#3 then .ok (.addi rd rs1 imm)
  else if f3 = 1#3 then
    if (imm.extractLsb' 5 7 : BitVec 7) = 0#7 then .ok (.slli rd rs1 (imm.extractLsb' 0 5)) else .error (.invalidEncoding w)
  else if f3 = 2#3 then .ok (.slti rd rs1 imm)
  else if f3 = 3#3 then .ok (.sltiu rd rs1 imm)
  else if f3 = 4#3 then .ok (.xori rd rs1 imm)
  else if f3 = 5#3 then
    if (imm.extractLsb' 5 7 : BitVec 7) = 0#7 then .ok (.srli rd rs1 (imm.extractLsb' 0 5))
    else if (imm.extractLsb' 5 7 : BitVec 7) = 32#7 then .ok (.srai rd rs1 (imm.extractLsb' 0 5))
    else .error (.invalidEncoding w)
  else if f3 = 6#3 then .ok (.ori rd rs1 imm)
  else if f3 = 7#3 then .ok (.andi rd rs1 imm)
  else .error (.invalidEncoding w)

/-- The LOAD row of R103. -/
def selectLoad (w : Word) (f3 : BitVec 3) (rd rs1 : Reg) (imm : Word) : Except Raise Instr :=
  if f3 = 0#3 then .ok (.lb rd rs1 imm)
  else if f3 = 1#3 then .ok (.lh rd rs1 imm)
  else if f3 = 2#3 then .ok (.lw rd rs1 imm)
  else if f3 = 4#3 then .ok (.lbu rd rs1 imm)
  else if f3 = 5#3 then .ok (.lhu rd rs1 imm)
  else .error (.invalidEncoding w)

/-- The STORE row of R103. -/
def selectStore (w : Word) (f3 : BitVec 3) (rs2 rs1 : Reg) (imm : Word) : Except Raise Instr :=
  if f3 = 0#3 then .ok (.sb rs2 rs1 imm)
  else if f3 = 1#3 then .ok (.sh rs2 rs1 imm)
  else if f3 = 2#3 then .ok (.sw rs2 rs1 imm)
  else .error (.invalidEncoding w)

/-- The BRANCH row of R103. -/
def selectBranch (w : Word) (f3 : BitVec 3) (rs1 rs2 : Reg) (imm : Word) : Except Raise Instr :=
  if f3 = 0#3 then .ok (.beq rs1 rs2 imm)
  else if f3 = 1#3 then .ok (.bne rs1 rs2 imm)
  else if f3 = 4#3 then .ok (.blt rs1 rs2 imm)
  else if f3 = 5#3 then .ok (.bge rs1 rs2 imm)
  else if f3 = 6#3 then .ok (.bltu rs1 rs2 imm)
  else if f3 = 7#3 then .ok (.bgeu rs1 rs2 imm)
  else .error (.invalidEncoding w)

/-- The I-format opcodes of R103: LOAD, OP-IMM, JALR (funct3 = 0 only) and SYSTEM (selected here, halted by its meaning). -/
def selectI (w : Word) (op : BitVec 7) (f3 : BitVec 3) (rd rs1 : Reg) (imm : Word) : Except Raise Instr :=
  if op = 0x03#7 then selectLoad w f3 rd rs1 imm
  else if op = 0x13#7 then selectOpImm w f3 rd rs1 imm
  else if op = 0x67#7 then
    if f3 = 0#3 then .ok (.jalr rd rs1 imm) else .error (.invalidEncoding w)
  else if op = 0x73#7 then .ok (.system imm rs1 f3 rd)
  else .error (.invalidEncoding w)

/-- Instruction selection within a group: 30_encoding.md R103. `w` is the word the record came from. -/
def select (w : Word) : Record → Except Raise Instr
  | .r f7 rs2 rs1 f3 rd _ => selectOp w f7 f3 rd rs1 rs2
  | .i imm rs1 f3 rd op => selectI w op f3 rd rs1 imm
  | .s imm rs2 rs1 f3 _ => selectStore w f3 rs2 rs1 imm
  | .b imm rs2 rs1 f3 _ => selectBranch w f3 rs1 rs2 imm
  | .u imm rd op => if op = 0x37#7 then .ok (.lui rd imm) else .ok (.auipc rd imm)
  | .j imm rd _ => .ok (.jal rd imm)

/-- The instruction of a word. Opcode 15 has no record; its word is the table's MISC-MEM row, and the halt that `decodeRecord`
raises for it is that row's meaning (log entry 6). -/
def decode (w : Word) : Except Raise Instr :=
  if fieldOpcode w = 0x0F#7 then .ok (.miscMem w)
  else
    match decodeRecord w with
    | .ok rec => select w rec
    | .error r => .error r

/-- The word of four bytes, the first at the lowest address: little-endian, 20_memory.md R63, R70. -/
def wordOfBytes (b0 b1 b2 b3 : Byte) : Word :=
  b0.setWidth 32 ||| (b1.setWidth 32 <<< 8) ||| (b2.setWidth 32 <<< 16) ||| (b3.setWidth 32 <<< 24)

/-- The four bytes of a word in the order memory holds them: 20_memory.md R67. -/
def bytesOfWord (w : Word) : List Byte :=
  [w.extractLsb' 0 8, w.extractLsb' 8 8, w.extractLsb' 16 8, w.extractLsb' 24 8]

/-- Decoding of a byte stream: one instruction and the rest of the stream; none where no word is left or the word is illegal. -/
def decodeBytes : List Byte → Option (Instr × List Byte)
  | b0 :: b1 :: b2 :: b3 :: rest =>
    match decode (wordOfBytes b0 b1 b2 b3) with
    | .ok i => some (i, rest)
    | .error _ => none
  | _ => none

/-- The instruction the decoder reads from an instruction whose bits are `w`, numbered as spec/opcode_table.json numbers them: the
word is laid out little-endian and decoded; every bit above `nbits` is 0. -/
def decodeTableWord (nbits w : Nat) : Option Instr :=
  (decodeBytes (bytesOfWord (BitVec.ofNat 32 (w % 2 ^ nbits)))).map Prod.fst

/-! ## The encoder (30_encoding.md R107) -/

/-- `EncR`: R107. -/
def encR (f7 : BitVec 7) (rs2 rs1 : Reg) (f3 : BitVec 3) (rd : Reg) (op : BitVec 7) : Word :=
  (f7 ++ rs2 ++ rs1 ++ f3 ++ rd ++ op : BitVec 32)

/-- `EncI`: R107. -/
def encI (imm : Word) (rs1 : Reg) (f3 : BitVec 3) (rd : Reg) (op : BitVec 7) : Word :=
  (imm.extractLsb' 0 12 ++ rs1 ++ f3 ++ rd ++ op : BitVec 32)

/-- `EncS`: R107. -/
def encS (imm : Word) (rs2 rs1 : Reg) (f3 : BitVec 3) (op : BitVec 7) : Word :=
  (imm.extractLsb' 5 7 ++ rs2 ++ rs1 ++ f3 ++ imm.extractLsb' 0 5 ++ op : BitVec 32)

/-- `EncB`: R107. -/
def encB (imm : Word) (rs2 rs1 : Reg) (f3 : BitVec 3) (op : BitVec 7) : Word :=
  (imm.extractLsb' 12 1 ++ imm.extractLsb' 5 6 ++ rs2 ++ rs1 ++ f3 ++ imm.extractLsb' 1 4 ++ imm.extractLsb' 11 1 ++ op : BitVec 32)

/-- `EncU`: R107, from the 20-bit field. -/
def encU (u20 : BitVec 20) (rd : Reg) (op : BitVec 7) : Word :=
  (u20 ++ rd ++ op : BitVec 32)

/-- `EncJ`: R107. -/
def encJ (imm : Word) (rd : Reg) (op : BitVec 7) : Word :=
  (imm.extractLsb' 20 1 ++ imm.extractLsb' 1 10 ++ imm.extractLsb' 11 1 ++ imm.extractLsb' 12 8 ++ rd ++ op : BitVec 32)

/-- The word of a record: R107. The U immediate is encoded by its 20-bit field. -/
def Record.encode : Record → Word
  | .r f7 rs2 rs1 f3 rd op => encR f7 rs2 rs1 f3 rd op
  | .i imm rs1 f3 rd op => encI imm rs1 f3 rd op
  | .s imm rs2 rs1 f3 op => encS imm rs2 rs1 f3 op
  | .b imm rs2 rs1 f3 op => encB imm rs2 rs1 f3 op
  | .u imm rd op => encU (imm.extractLsb' 12 20) rd op
  | .j imm rd op => encJ imm rd op

/-- The I immediate of an OP-IMM shift: `imm[11:5]` is the function key and `imm[4:0]` the shift amount (R104). -/
def shiftImm (key : BitVec 7) (shamt : BitVec 5) : Word :=
  sextN (key ++ shamt : BitVec 12)

/-- The word of an instruction, from the encoding rows of spec/opcode_table.json. -/
def encode : Instr → Word
  | .addi rd rs1 imm => encI imm rs1 0#3 rd 0x13#7
  | .slti rd rs1 imm => encI imm rs1 2#3 rd 0x13#7
  | .sltiu rd rs1 imm => encI imm rs1 3#3 rd 0x13#7
  | .xori rd rs1 imm => encI imm rs1 4#3 rd 0x13#7
  | .ori rd rs1 imm => encI imm rs1 6#3 rd 0x13#7
  | .andi rd rs1 imm => encI imm rs1 7#3 rd 0x13#7
  | .slli rd rs1 shamt => encI (shiftImm 0#7 shamt) rs1 1#3 rd 0x13#7
  | .srli rd rs1 shamt => encI (shiftImm 0#7 shamt) rs1 5#3 rd 0x13#7
  | .srai rd rs1 shamt => encI (shiftImm 32#7 shamt) rs1 5#3 rd 0x13#7
  | .add rd rs1 rs2 => encR 0#7 rs2 rs1 0#3 rd 0x33#7
  | .sub rd rs1 rs2 => encR 32#7 rs2 rs1 0#3 rd 0x33#7
  | .sll rd rs1 rs2 => encR 0#7 rs2 rs1 1#3 rd 0x33#7
  | .slt rd rs1 rs2 => encR 0#7 rs2 rs1 2#3 rd 0x33#7
  | .sltu rd rs1 rs2 => encR 0#7 rs2 rs1 3#3 rd 0x33#7
  | .xor rd rs1 rs2 => encR 0#7 rs2 rs1 4#3 rd 0x33#7
  | .srl rd rs1 rs2 => encR 0#7 rs2 rs1 5#3 rd 0x33#7
  | .sra rd rs1 rs2 => encR 32#7 rs2 rs1 5#3 rd 0x33#7
  | .or rd rs1 rs2 => encR 0#7 rs2 rs1 6#3 rd 0x33#7
  | .and rd rs1 rs2 => encR 0#7 rs2 rs1 7#3 rd 0x33#7
  | .lui rd imm => encU (imm.extractLsb' 12 20) rd 0x37#7
  | .auipc rd imm => encU (imm.extractLsb' 12 20) rd 0x17#7
  | .jal rd imm => encJ imm rd 0x6F#7
  | .jalr rd rs1 imm => encI imm rs1 0#3 rd 0x67#7
  | .beq rs1 rs2 imm => encB imm rs2 rs1 0#3 0x63#7
  | .bne rs1 rs2 imm => encB imm rs2 rs1 1#3 0x63#7
  | .blt rs1 rs2 imm => encB imm rs2 rs1 4#3 0x63#7
  | .bge rs1 rs2 imm => encB imm rs2 rs1 5#3 0x63#7
  | .bltu rs1 rs2 imm => encB imm rs2 rs1 6#3 0x63#7
  | .bgeu rs1 rs2 imm => encB imm rs2 rs1 7#3 0x63#7
  | .lb rd rs1 imm => encI imm rs1 0#3 rd 0x03#7
  | .lh rd rs1 imm => encI imm rs1 1#3 rd 0x03#7
  | .lw rd rs1 imm => encI imm rs1 2#3 rd 0x03#7
  | .lbu rd rs1 imm => encI imm rs1 4#3 rd 0x03#7
  | .lhu rd rs1 imm => encI imm rs1 5#3 rd 0x03#7
  | .sb rs2 rs1 imm => encS imm rs2 rs1 0#3 0x23#7
  | .sh rs2 rs1 imm => encS imm rs2 rs1 1#3 0x23#7
  | .sw rs2 rs1 imm => encS imm rs2 rs1 2#3 0x23#7
  | .miscMem word => word
  | .system imm rs1 f3 rd => encI imm rs1 f3 rd 0x73#7

end Sys2Proof
end

