-- ==== Sys2Proof/Config.lean ====
section
/-!
DEFINITION. The configuration parameters of 00_scope.md R9. `Config` holds the five that a step reads: they are fixed between
two resets. `Load` is the argument of `Reset(config)`: all eight parameters of R9.
-/

namespace Sys2Proof

/-- The parameters a step reads (00_scope.md R9). No rule writes them after `Reset`. -/
structure Config where
  /-- `MEM_OFFSET`, the base address of the backing memory. -/
  memOffset : Word
  /-- `MEM_SIZE`, the length of the backing memory in bytes. -/
  memSize : Nat
  /-- `CODE_BASE`, the address of the first byte of the loaded code. -/
  codeBase : Word
  /-- `CODE_LEN`, the length of the loaded code in bytes. -/
  codeLen : Nat
  /-- `CHECK_MISALIGNED_JUMP`: whether JAL and taken branches raise the optional error of R171. -/
  checkMisalignedJump : Bool
  deriving DecidableEq, Repr

/-- The three constraints of 00_scope.md R10. -/
abbrev Config.wf (c : Config) : Prop :=
  c.memOffset.toNat + c.memSize ≤ 2 ^ 32 ∧
  c.memOffset.toNat ≤ c.codeBase.toNat ∧
  c.codeBase.toNat + c.codeLen ≤ c.memOffset.toNat + c.memSize

/-- The argument of `Reset(config)`: the parameters of 00_scope.md R9, `CODE_BYTES`, `PC0` and `MEM_INIT` among them. -/
structure Load where
  config : Config
  /-- `CODE_BYTES`, the code stream. -/
  codeBytes : List Byte
  /-- `PC0`, the initial PC. -/
  pc0 : Word
  /-- `MEM_INIT` as the list of its bytes that are not zero (log entry 3): the first entry for an address counts. -/
  memInit : List (Nat × Byte)
  deriving DecidableEq, Repr

/-- What `Reset` accepts: R10, and `CODE_BYTES` has `CODE_LEN` bytes (R9). -/
abbrev Load.wf (l : Load) : Prop :=
  l.config.wf ∧ l.codeBytes.length = l.config.codeLen

/-- The reference values of 00_scope.md R9, with no code loaded. `CODE_BASE` and `CODE_LEN` have no reference value: 0 and 0 are
a DESIGN CHOICE (log entry 2). -/
def Config.reference : Config :=
  { memOffset := 0#32, memSize := 100, codeBase := 0#32, codeLen := 0, checkMisalignedJump := false }

/-- The reference load: nothing in the code stream, `PC0 = CODE_BASE`, `MEM_INIT` all zero (00_scope.md R9, log entry 2). -/
def Load.reference : Load :=
  { config := Config.reference, codeBytes := [], pc0 := Config.reference.codeBase, memInit := [] }

end Sys2Proof
end

