-- ==== Sys2Proof/Machine/State.lean ====
section
/-!
DEFINITION. The state of the block as plain data (10_state.md, 20_memory.md R60), the reasons a step can be turned away, and the state
after reset (70_reset_and_hazards.md R260).
-/

namespace Sys2Proof.Machine

/-- The run state: 10_state.md R46. -/
inductive RunState where
  | running | halted
  deriving DecidableEq, Repr

/-- The backing memory (20_memory.md R60) as its bytes that differ from `Memory.unlisted`, by rising address. -/
abbrev Memory := List Host.Cell

/-- The whole state of the block: 10_state.md R49 and its section 4. -/
structure State where
  /-- The parameters of the last `Reset(config)` that a step reads (00_scope.md R9, log entry 1). -/
  config : Config
  /-- The register file RF, 32 words indexed 0..31 (10_state.md R30); entry 0 is never read or written (R32, R33). -/
  regs : Vector Word 32
  /-- The program counter, a byte address (10_state.md R40). -/
  pc : Word
  /-- Every byte of the backing memory (20_memory.md R60). -/
  mem : Memory
  /-- Running or Halted (10_state.md R46). -/
  run : RunState
  /-- The halt cause (10_state.md R47, 60_exceptions.md R222). -/
  cause : HaltCause
  /-- The halt information (10_state.md R47, 60_exceptions.md R223). -/
  info : Word
  deriving DecidableEq, Repr

/-- The machine never ends in a fault outcome: every error of 60_exceptions.md R221 is the precise halt of R224, a next state with
`run`, `cause` and `info` written (log entry 5). Nobody raises a fault, so the type has no constructor (safe). -/
inductive Fault where
  deriving DecidableEq, Repr

/-- Why the model takes no step or accepts no reset. -/
inductive Refusal where
  /-- An instruction whose meaning is not written yet; raised by an arm of `exec` and by nothing else. No arm raises it in this
  model (safe). -/
  | notModelled (mnemonic : String)
  /-- Raised by `step` when the block is Halted: "a Halted block has no step" (10_state.md R48, 93_implementation_defined.md U12);
  safe, log entry 4. -/
  | notRunning
  /-- Raised by `resetBlock` for a configuration that breaks 00_scope.md R10 (93_implementation_defined.md U11); safe. -/
  | badConfiguration
  deriving DecidableEq, Repr

/-- The state after `Reset(config)` (70_reset_and_hazards.md R260) for the reference load of `Load.reference`: every register 0, the
PC at `PC0`, memory all zero, Running, cause NONE, info 0. -/
def State.reset : State :=
  { config := Config.reference
    regs := Vector.replicate 32 0#32
    pc := Load.reference.pc0
    mem := []
    run := .running
    cause := .none
    info := 0#32 }

end Sys2Proof.Machine
end

