-- ==== Sys2Proof/Machine/Ops.lean ====
section
/-!
DEFINITION. The named operations of the block: the register file (10_state.md R32, R33), the byte memory and its accessors
(20_memory.md R62 to R70), raising an error (60_exceptions.md R223, R224), committing an instruction's effect (10_state.md R48),
and the host's `Reset` and `Observe` (10_state.md R45).
-/

namespace Sys2Proof.Machine

/-! ## Register file and PC -/

/-- `read(i)`: 0 for register 0, else the stored word (10_state.md R32). -/
def State.readReg (s : State) (i : Reg) : Word :=
  if i = 0#5 then 0#32 else s.regs[i.toNat]'i.isLt

/-- `write(i, v)`: nothing for register 0, else stores `v` (10_state.md R33). -/
def State.writeReg (s : State) (i : Reg) (v : Word) : State :=
  if i = 0#5 then s else { s with regs := s.regs.set i.toNat v i.isLt }

/-- `set_pc` (10_state.md R40). -/
def State.setPc (s : State) (v : Word) : State :=
  { s with pc := v }

/-! ## Memory: bytes -/

/-- What an address that memory does not list reads as. The reference `MEM_INIT` is all zero (20_memory.md R61, log entry 3). -/
def Memory.unlisted : Byte := 0#8

/-- The canonical form: addresses strictly rising, no entry equal to what an unlisted address reads as. -/
abbrev Memory.wf (m : Memory) : Prop :=
  m.Pairwise (fun x y => x.1 < y.1) ∧ ∀ c ∈ m, c.2 ≠ Memory.unlisted

/-- The byte at an address. -/
def Memory.read : Memory → Nat → Byte
  | [], _ => Memory.unlisted
  | (a, b) :: rest, k => if a = k then b else Memory.read rest k

/-- A cell put in front, unless it holds what an unlisted address reads as. -/
def Memory.cons (k : Nat) (v : Byte) (m : Memory) : Memory :=
  if v = Memory.unlisted then m else (k, v) :: m

/-- Write one byte, keeping the canonical form. -/
def Memory.write : Memory → Nat → Byte → Memory
  | [], k, v => Memory.cons k v []
  | (a, b) :: rest, k, v =>
    if k < a then Memory.cons k v ((a, b) :: rest)
    else if k = a then Memory.cons k v rest
    else (a, b) :: Memory.write rest k v

/-- The low `n` bytes from address `a` on, assembled little-endian: the loop of 20_memory.md R66. -/
def Memory.readLE (m : Memory) (a : Nat) : Nat → Word
  | 0 => 0#32
  | n + 1 => Memory.readLE m a n ||| ((Memory.read m (a + n)).setWidth 32 <<< (8 * n))

/-- Write the low `n` bytes of `v` from address `a` on, least-significant first: the loop of 20_memory.md R67. -/
def Memory.writeLE (m : Memory) (a : Nat) (v : Word) : Nat → Memory
  | 0 => m
  | n + 1 => Memory.write (Memory.writeLE m a v n) (a + n) (v.extractLsb' (8 * n) 8)

/-- Write a list of bytes from address `a` on. -/
def Memory.writeBytes (m : Memory) (a : Nat) : List Byte → Memory
  | [] => m
  | b :: rest => Memory.writeBytes (Memory.write m a b) (a + 1) rest

/-! ## Range checks -/

/-- `InRange(addr, n)` on integer addresses, without wrap: 20_memory.md R62. -/
def inRange (c : Config) (addr : Word) (n : Nat) : Bool :=
  decide (c.memOffset.toNat ≤ addr.toNat ∧ addr.toNat + n ≤ c.memOffset.toNat + c.memSize)

/-- `InCode(pc, n)` on integer addresses, without wrap: 20_memory.md R69. -/
def inCode (c : Config) (pc : Word) (n : Nat) : Bool :=
  decide (c.codeBase.toNat ≤ pc.toNat ∧ pc.toNat + n ≤ c.codeBase.toNat + c.codeLen)

/-- The sizes of the multi-byte primitives: 20_memory.md R65. -/
def sizeOk (n : Nat) : Bool :=
  n == 1 || n == 2 || n == 4

/-! ## The accessor primitives -/

/-- `load_byte(addr)`: 20_memory.md R64. -/
def loadByte (s : State) (addr : Word) : Except Raise Word :=
  if inRange s.config addr 1 then .ok ((Memory.read s.mem addr.toNat).setWidth 32) else .error (.outOfRangeMemory addr)

/-- `store_byte(addr, data)`: 20_memory.md R64. -/
def storeByte (s : State) (addr : Word) (data : Word) : Except Raise State :=
  if inRange s.config addr 1 then .ok { s with mem := Memory.write s.mem addr.toNat (data.extractLsb' 0 8) }
  else .error (.outOfRangeMemory addr)

/-- `MemRead(addr, n)`: 20_memory.md R66; a size outside 1, 2, 4 is invalid-size (R65, log entry 9). -/
def memRead (s : State) (addr : Word) (n : Nat) : Except Raise Word :=
  if sizeOk n then
    if inRange s.config addr n then .ok (Memory.readLE s.mem addr.toNat n) else .error (.outOfRangeMemory addr)
  else .error .invalidSize

/-- The check of a store before any byte is written: 20_memory.md R67, 42_load_store.md R196. -/
def memWriteCheck (s : State) (addr : Word) (n : Nat) : Except Raise Unit :=
  if sizeOk n then
    if inRange s.config addr n then .ok () else .error (.outOfRangeMemory addr)
  else .error .invalidSize

/-- `MemWrite(addr, n, v)`: 20_memory.md R67. -/
def memWrite (s : State) (addr : Word) (n : Nat) (v : Word) : Except Raise State :=
  match memWriteCheck s addr n with
  | .ok () => .ok { s with mem := Memory.writeLE s.mem addr.toNat v n }
  | .error r => .error r

/-- `Fetch(pc)`, from memory as it is at the start of the step: 20_memory.md R70. -/
def fetchWord (s : State) : Word :=
  wordOfBytes (Memory.read s.mem s.pc.toNat) (Memory.read s.mem (s.pc.toNat + 1)) (Memory.read s.mem (s.pc.toNat + 2))
    (Memory.read s.mem (s.pc.toNat + 3))

/-! ## Halting -/

/-- The block halts with a cause and an info, and nothing else changes: 60_exceptions.md R223, R224; 10_state.md R48. -/
def State.halt (s : State) (cause : HaltCause) (info : Word) : State :=
  { s with run := .halted, cause := cause, info := info }

/-- `raise K(v)`: taking an error, the one reaction the block has to it (60_exceptions.md R223, R224, R229). Nothing the step
computed is committed. There is no return from it (R230). -/
def State.raise (s : State) (r : Raise) : State :=
  s.halt r.cause r.info

/-! ## The effect of an instruction and its commit -/

/-- What `Execute` hands to the commit: `(wr, mw, next_pc)` of 10_state.md R48. -/
structure Effect where
  /-- the register write `(rd, v)` -/
  wr : Option (Reg × Word)
  /-- the memory write `(addr, n, v)`, already range-checked -/
  mw : Option (Word × Nat × Word)
  nextPc : Word
  deriving DecidableEq, Repr

/-- The register write of a commit: 10_state.md R48, R33. -/
def State.commitReg (s : State) : Option (Reg × Word) → State
  | none => s
  | some (rd, v) => s.writeReg rd v

/-- The memory write of a commit: 10_state.md R48. -/
def State.commitMem (s : State) : Option (Word × Nat × Word) → State
  | none => s
  | some (addr, n, v) => { s with mem := Memory.writeLE s.mem addr.toNat v n }

/-- The commit of 10_state.md R48: register, memory, PC. -/
def State.commit (s : State) (e : Effect) : State :=
  ((s.commitReg e.wr).commitMem e.mw).setPc e.nextPc

/-- How a step ends: the commit when nothing was raised, the precise halt otherwise (10_state.md R48, 60_exceptions.md R224). -/
def conclude (s : State) : Except Raise Effect → Host.Outcome State Fault Refusal
  | .ok e => .next (s.commit e)
  | .error r => .next (s.raise r)

/-! ## Fetch and decode of one step -/

/-- The decoded instruction at the PC: `Decode(Fetch(pc))` of 10_state.md R48. -/
def fetchDecode (s : State) : Except Raise Instr :=
  decode (fetchWord s)

/-- The first check of a step: all four bytes at the PC lie in the code region (20_memory.md R69, 60_exceptions.md R226). -/
def fetchable (s : State) : Bool :=
  inCode s.config s.pc 4

/-- A failed fetch: cause EXHAUSTED, info 0, nothing else changes (10_state.md R48). -/
def exhaust (s : State) : State :=
  s.halt .exhausted 0#32

/-! ## The host's operations -/

/-- Whether an address lies in the backing memory: 20_memory.md R60. -/
def hasByte (c : Config) (a : Nat) : Bool :=
  decide (c.memOffset.toNat ≤ a ∧ a < c.memOffset.toNat + c.memSize)

/-- The memory of `MEM_INIT` over the window: 20_memory.md R61. -/
def initMemory (c : Config) : List (Nat × Byte) → Memory
  | [] => []
  | (a, b) :: rest => if hasByte c a then Memory.write (initMemory c rest) a b else initMemory c rest

/-- The memory after reset: the code bytes over `MEM_INIT` (20_memory.md R61). -/
def loadedMemory (l : Load) : Memory :=
  Memory.writeBytes (initMemory l.config l.memInit) l.config.codeBase.toNat l.codeBytes

/-- The state that `Reset(config)` establishes, all at once: 70_reset_and_hazards.md R260. -/
def loadedState (l : Load) : State :=
  { config := l.config
    regs := Vector.replicate 32 0#32
    pc := l.pc0
    mem := loadedMemory l
    run := .running
    cause := .none
    info := 0#32 }

/-- `Reset(config)`: allowed at any time (10_state.md R45), so it asks nothing of a state before it; refused for a configuration
that breaks 00_scope.md R10 (93_implementation_defined.md U11). -/
def resetBlock (l : Load) : Host.Outcome State Fault Refusal :=
  if l.wf then .next (loadedState l) else .refused .badConfiguration

/-- What `Observe()` returns: x1..x31, pc, every memory byte in range, run state, halt cause and halt info (10_state.md R45). -/
structure Observation where
  /-- x1 to x31, in order -/
  xs : List Word
  pc : Word
  /-- the bytes at `MEM_OFFSET`, `MEM_OFFSET + 1`, ... -/
  bytes : List Byte
  run : RunState
  cause : HaltCause
  info : Word
  deriving DecidableEq, Repr

/-- `Observe()`; it changes nothing (10_state.md R45). -/
def observe (s : State) : Observation :=
  { xs := (List.range 31).map fun k => s.readReg (BitVec.ofNat 5 (k + 1))
    pc := s.pc
    bytes := (List.range s.config.memSize).map fun k => Memory.read s.mem (s.config.memOffset.toNat + k)
    run := s.run
    cause := s.cause
    info := s.info }

/-! ## Placing one word for the next fetch -/

/-- The configuration with `[pc, pc + 4)` as its code region and a window that holds it, if the word is not in the code already
(log entry 8). -/
def placeConfig (c : Config) (pc : Word) : Config :=
  if inCode c pc 4 then c
  else
    let lo := min c.memOffset.toNat pc.toNat
    let hi := max (c.memOffset.toNat + c.memSize) (pc.toNat + 4)
    { c with memOffset := BitVec.ofNat 32 lo, memSize := hi - lo, codeBase := pc, codeLen := 4 }

/-- The state with a word loaded at the PC and the block Running (log entry 8). -/
def State.placeWord (s : State) (w : Word) : State :=
  { s with
    config := placeConfig s.config s.pc
    mem := Memory.writeLE s.mem s.pc.toNat w 4
    run := .running
    cause := .none
    info := 0#32 }

end Sys2Proof.Machine
end

