-- ==== Sys2Proof/Machine/Operands.lean ====
section
/-!
DEFINITION. The operand forms of the instructions: shift amounts (30_encoding.md R104, 40_integer_computational.md R140), the one
addressing mode (42_load_store.md R200), the PC-relative and register targets and the target check (41_control_transfer.md R171 to
R173), and the shared shapes of execution built on them.
-/

namespace Sys2Proof.Machine

/-- The default next PC, `pc + 4` modulo 2^32: 10_state.md R43, R44. -/
def State.pcPlus4 (s : State) : Word :=
  s.pc + 4#32

/-- A register shift amount, the low five bits of the value: 40_integer_computational.md R140. -/
def shiftAmount (v : Word) : Nat :=
  (v.extractLsb' 0 5 : BitVec 5).toNat

/-- The effective address `read(rs1) + imm` modulo 2^32: 42_load_store.md R200. -/
def State.effectiveAddr (s : State) (rs1 : Reg) (imm : Word) : Word :=
  s.readReg rs1 + imm

/-- The PC-relative target `pc + imm` of JAL and branches: 10_state.md R41, R43. -/
def State.relTarget (s : State) (imm : Word) : Word :=
  s.pc + imm

/-- The JALR target `(x[rs1] + imm) & 0xFFFFFFFE`: 41_control_transfer.md R173. -/
def State.regTarget (s : State) (rs1 : Reg) (imm : Word) : Word :=
  (s.readReg rs1 + imm) &&& 0xFFFFFFFE#32

/-- `CheckTarget(target)`: 41_control_transfer.md R171. -/
def checkTarget (c : Config) (target : Word) : Except Raise Unit :=
  if c.checkMisalignedJump && target.getLsbD 0 then .error (.misalignedJump target) else .ok ()

/-- The effect that writes one register and goes on to `pc + 4`. -/
def State.regEffect (s : State) (rd : Reg) (v : Word) : Effect :=
  { wr := some (rd, v), mw := none, nextPc := s.pcPlus4 }

/-- A computational instruction: `x[rd] <- v`, next PC `pc + 4` (40_integer_computational.md, opening text). -/
def State.compute (s : State) (rd : Reg) (v : Word) : Host.Outcome State Fault Refusal :=
  conclude s (.ok (s.regEffect rd v))

/-- A jump to a target that is checked, linking `pc + 4`: 41_control_transfer.md R172. -/
def jumpEffect (s : State) (rd : Reg) (target : Word) : Effect :=
  { wr := some (rd, s.pcPlus4), mw := none, nextPc := target }

/-- `Branch(pred)`: 41_control_transfer.md R180. Branches write no register. -/
def branch (s : State) (taken : Bool) (imm : Word) : Except Raise Effect :=
  if taken then
    match checkTarget s.config (s.relTarget imm) with
    | .ok () => .ok { wr := none, mw := none, nextPc := s.relTarget imm }
    | .error r => .error r
  else .ok { wr := none, mw := none, nextPc := s.pcPlus4 }

/-- `Load(n, signed)`: 42_load_store.md R190. `extend` is the sign extension of the signed loads. -/
def load (s : State) (n : Nat) (extend : Word → Word) (rd rs1 : Reg) (imm : Word) : Except Raise Effect :=
  match memRead s (s.effectiveAddr rs1 imm) n with
  | .ok v => .ok (s.regEffect rd (extend v))
  | .error r => .error r

/-- `Store(n)`: 42_load_store.md R196. The whole access is checked here and the bytes are written at the commit. -/
def store (s : State) (n : Nat) (rs2 rs1 : Reg) (imm : Word) : Except Raise Effect :=
  match memWriteCheck s (s.effectiveAddr rs1 imm) n with
  | .ok () => .ok { wr := none, mw := some (s.effectiveAddr rs1 imm, n, s.readReg rs2), nextPc := s.pcPlus4 }
  | .error r => .error r

end Sys2Proof.Machine
end

