-- ==== Sys2Proof/Machine/Branch.lean ====
section
/-!
DEFINITION. The conditional branches of 41_control_transfer.md section 3: the values x[rs1] and x[rs2] are compared (R180).
-/

namespace Sys2Proof.Machine

/-- BEQ: 41_control_transfer.md R181. -/
def execBeq (rs1 rs2 : Reg) (imm : Word) (s : State) : Host.Outcome State Fault Refusal :=
  conclude s (branch s (s.readReg rs1 == s.readReg rs2) imm)

/-- BNE: R182. -/
def execBne (rs1 rs2 : Reg) (imm : Word) (s : State) : Host.Outcome State Fault Refusal :=
  conclude s (branch s (s.readReg rs1 != s.readReg rs2) imm)

/-- BLT: R183. -/
def execBlt (rs1 rs2 : Reg) (imm : Word) (s : State) : Host.Outcome State Fault Refusal :=
  conclude s (branch s (ltSigned (s.readReg rs1) (s.readReg rs2)) imm)

/-- BGE: R184. -/
def execBge (rs1 rs2 : Reg) (imm : Word) (s : State) : Host.Outcome State Fault Refusal :=
  conclude s (branch s (!ltSigned (s.readReg rs1) (s.readReg rs2)) imm)

/-- BLTU: R185. -/
def execBltu (rs1 rs2 : Reg) (imm : Word) (s : State) : Host.Outcome State Fault Refusal :=
  conclude s (branch s (ltUnsigned (s.readReg rs1) (s.readReg rs2)) imm)

/-- BGEU: R186. -/
def execBgeu (rs1 rs2 : Reg) (imm : Word) (s : State) : Host.Outcome State Fault Refusal :=
  conclude s (branch s (!ltUnsigned (s.readReg rs1) (s.readReg rs2)) imm)

end Sys2Proof.Machine
end

