-- ==== Sys2Proof/Machine/Groups.lean ====
section
/-!
DEFINITION. The two opcode groups of 43_misc_mem_system.md. Every word of either raises INVALID_ENCODING with the word as info.
-/

namespace Sys2Proof.Machine

/-- MISC-MEM, every word of opcode 15: 43_misc_mem_system.md R210. -/
def execMiscMem (word : Word) (s : State) : Host.Outcome State Fault Refusal :=
  conclude s (.error (.invalidEncoding word))

/-- SYSTEM, every I record of opcode 115: R212. The recorded word is the record's own word, written back by the encoder
(30_encoding.md R107, log entry 7). -/
def execSystem (imm : Word) (rs1 : Reg) (funct3 : BitVec 3) (rd : Reg) (s : State) : Host.Outcome State Fault Refusal :=
  conclude s (.error (.invalidEncoding (encI imm rs1 funct3 rd 0x73#7)))

end Sys2Proof.Machine
end

