-- ==== Sys2Proof/Machine/Jump.lean ====
section
/-!
DEFINITION. The jumps of 41_control_transfer.md section 2.
-/

namespace Sys2Proof.Machine

/-- JAL: 41_control_transfer.md R172. Nothing is written when the target check fails. -/
def execJal (rd : Reg) (imm : Word) (s : State) : Host.Outcome State Fault Refusal :=
  match checkTarget s.config (s.relTarget imm) with
  | .ok () => conclude s (.ok (jumpEffect s rd (s.relTarget imm)))
  | .error r => conclude s (.error r)

/-- JALR: R173. The target uses x[rs1] as it was before the link is written; it is never checked. -/
def execJalr (rd rs1 : Reg) (imm : Word) (s : State) : Host.Outcome State Fault Refusal :=
  conclude s (.ok (jumpEffect s rd (s.regTarget rs1 imm)))

end Sys2Proof.Machine
end

