-- ==== Sys2Proof/Machine/LoadStore.lean ====
section
/-!
DEFINITION. The load/store unit: the eight memory instructions of 42_load_store.md.
-/

namespace Sys2Proof.Machine

/-- LB, sign-extended from bit 7: 42_load_store.md R191. -/
def execLb (rd rs1 : Reg) (imm : Word) (s : State) : Host.Outcome State Fault Refusal :=
  conclude s (load s 1 (fun v => sext v 7) rd rs1 imm)

/-- LH, sign-extended from bit 15: R192. -/
def execLh (rd rs1 : Reg) (imm : Word) (s : State) : Host.Outcome State Fault Refusal :=
  conclude s (load s 2 (fun v => sext v 15) rd rs1 imm)

/-- LW: R193. -/
def execLw (rd rs1 : Reg) (imm : Word) (s : State) : Host.Outcome State Fault Refusal :=
  conclude s (load s 4 (fun v => v) rd rs1 imm)

/-- LBU, zero-extended: R194. -/
def execLbu (rd rs1 : Reg) (imm : Word) (s : State) : Host.Outcome State Fault Refusal :=
  conclude s (load s 1 (fun v => v) rd rs1 imm)

/-- LHU, zero-extended: R195. -/
def execLhu (rd rs1 : Reg) (imm : Word) (s : State) : Host.Outcome State Fault Refusal :=
  conclude s (load s 2 (fun v => v) rd rs1 imm)

/-- SB: R197. -/
def execSb (rs2 rs1 : Reg) (imm : Word) (s : State) : Host.Outcome State Fault Refusal :=
  conclude s (store s 1 rs2 rs1 imm)

/-- SH: R198. -/
def execSh (rs2 rs1 : Reg) (imm : Word) (s : State) : Host.Outcome State Fault Refusal :=
  conclude s (store s 2 rs2 rs1 imm)

/-- SW: R199. -/
def execSw (rs2 rs1 : Reg) (imm : Word) (s : State) : Host.Outcome State Fault Refusal :=
  conclude s (store s 4 rs2 rs1 imm)

end Sys2Proof.Machine
end

