-- ==== Sys2Proof/Machine/Op.lean ====
section
/-!
DEFINITION. OP: the ten register instructions of 40_integer_computational.md section 2. Operands are `read(rs1)` and `read(rs2)`;
the register shifts use the low five bits of the value of x[rs2] (R140).
-/

namespace Sys2Proof.Machine

/-- ADD: 40_integer_computational.md R141. -/
def execAdd (rd rs1 rs2 : Reg) (s : State) : Host.Outcome State Fault Refusal :=
  s.compute rd (s.readReg rs1 + s.readReg rs2)

/-- SUB: R142. -/
def execSub (rd rs1 rs2 : Reg) (s : State) : Host.Outcome State Fault Refusal :=
  s.compute rd (s.readReg rs1 - s.readReg rs2)

/-- SLL: R143. -/
def execSll (rd rs1 rs2 : Reg) (s : State) : Host.Outcome State Fault Refusal :=
  s.compute rd (s.readReg rs1 <<< shiftAmount (s.readReg rs2))

/-- SLT: R144. -/
def execSlt (rd rs1 rs2 : Reg) (s : State) : Host.Outcome State Fault Refusal :=
  s.compute rd (boolWord (ltSigned (s.readReg rs1) (s.readReg rs2)))

/-- SLTU: R145. -/
def execSltu (rd rs1 rs2 : Reg) (s : State) : Host.Outcome State Fault Refusal :=
  s.compute rd (boolWord (ltUnsigned (s.readReg rs1) (s.readReg rs2)))

/-- XOR: R146. -/
def execXor (rd rs1 rs2 : Reg) (s : State) : Host.Outcome State Fault Refusal :=
  s.compute rd (s.readReg rs1 ^^^ s.readReg rs2)

/-- SRL: R147. -/
def execSrl (rd rs1 rs2 : Reg) (s : State) : Host.Outcome State Fault Refusal :=
  s.compute rd (s.readReg rs1 >>> shiftAmount (s.readReg rs2))

/-- SRA: R148. -/
def execSra (rd rs1 rs2 : Reg) (s : State) : Host.Outcome State Fault Refusal :=
  s.compute rd ((s.readReg rs1).sshiftRight (shiftAmount (s.readReg rs2)))

/-- OR: R149. -/
def execOr (rd rs1 rs2 : Reg) (s : State) : Host.Outcome State Fault Refusal :=
  s.compute rd (s.readReg rs1 ||| s.readReg rs2)

/-- AND: R150. -/
def execAnd (rd rs1 rs2 : Reg) (s : State) : Host.Outcome State Fault Refusal :=
  s.compute rd (s.readReg rs1 &&& s.readReg rs2)

end Sys2Proof.Machine
end

