-- ==== Sys2Proof/Machine/OpImm.lean ====
section
/-!
DEFINITION. OP-IMM: the nine instructions of 40_integer_computational.md section 1. Operand 1 is `read(rs1)`, operand 2 the
sign-extended immediate, the result goes to rd (R130).
-/

namespace Sys2Proof.Machine

/-- ADDI: 40_integer_computational.md R131. -/
def execAddi (rd rs1 : Reg) (imm : Word) (s : State) : Host.Outcome State Fault Refusal :=
  s.compute rd (s.readReg rs1 + imm)

/-- SLTI: R132. -/
def execSlti (rd rs1 : Reg) (imm : Word) (s : State) : Host.Outcome State Fault Refusal :=
  s.compute rd (boolWord (ltSigned (s.readReg rs1) imm))

/-- SLTIU: R133. -/
def execSltiu (rd rs1 : Reg) (imm : Word) (s : State) : Host.Outcome State Fault Refusal :=
  s.compute rd (boolWord (ltUnsigned (s.readReg rs1) imm))

/-- XORI: R134. -/
def execXori (rd rs1 : Reg) (imm : Word) (s : State) : Host.Outcome State Fault Refusal :=
  s.compute rd (s.readReg rs1 ^^^ imm)

/-- ORI: R135. -/
def execOri (rd rs1 : Reg) (imm : Word) (s : State) : Host.Outcome State Fault Refusal :=
  s.compute rd (s.readReg rs1 ||| imm)

/-- ANDI: R136. -/
def execAndi (rd rs1 : Reg) (imm : Word) (s : State) : Host.Outcome State Fault Refusal :=
  s.compute rd (s.readReg rs1 &&& imm)

/-- SLLI: R137. -/
def execSlli (rd rs1 : Reg) (shamt : BitVec 5) (s : State) : Host.Outcome State Fault Refusal :=
  s.compute rd (s.readReg rs1 <<< shamt.toNat)

/-- SRLI: R138. -/
def execSrli (rd rs1 : Reg) (shamt : BitVec 5) (s : State) : Host.Outcome State Fault Refusal :=
  s.compute rd (s.readReg rs1 >>> shamt.toNat)

/-- SRAI: R139. -/
def execSrai (rd rs1 : Reg) (shamt : BitVec 5) (s : State) : Host.Outcome State Fault Refusal :=
  s.compute rd ((s.readReg rs1).sshiftRight shamt.toNat)

end Sys2Proof.Machine
end

