-- ==== Sys2Proof/Machine/Upper.lean ====
section
/-!
DEFINITION. The upper-immediate instructions of 40_integer_computational.md section 3; the decoder has already shifted the
immediate (30_encoding.md R96).
-/

namespace Sys2Proof.Machine

/-- LUI: 40_integer_computational.md R151. -/
def execLui (rd : Reg) (imm : Word) (s : State) : Host.Outcome State Fault Refusal :=
  s.compute rd imm

/-- AUIPC: R152; `pc` is the address of this instruction (10_state.md R41). -/
def execAuipc (rd : Reg) (imm : Word) (s : State) : Host.Outcome State Fault Refusal :=
  s.compute rd (s.pc + imm)

end Sys2Proof.Machine
end

