-- ==== Sys2Proof/Machine/Step.lean ====
section
/-!
DEFINITION. One `Step()` of the block (10_state.md R48), in the order of checks of 60_exceptions.md R226, and the placing of one word
for the next step.
-/

namespace Sys2Proof.Machine

/-- `Step()`: 10_state.md R48. A Halted block has no step (refused); a failed fetch ends the run (EXHAUSTED); an illegal word raises
its error; otherwise the decoded instruction runs. -/
def step (s : State) : Host.Outcome State Fault Refusal :=
  match s.run with
  | .halted => .refused .notRunning
  | .running =>
    if fetchable s then
      match fetchDecode s with
      | .ok i => exec i s
      | .error r => .next (s.raise r)
    else .next (exhaust s)

/-- `s` with the word of `w` loaded where `step` fetches next (log entry 8); bits above `nbits` are 0. -/
def State.withFetchWord (s : State) (nbits w : Nat) : State :=
  s.placeWord (BitVec.ofNat 32 (w % 2 ^ nbits))

end Sys2Proof.Machine
end

