-- ==== Sys2Proof/Safety.lean ====
section
/-!
DEFINITION. What counts as a safe run, in the terms the claims use: the invariant of the reachable states, the two ways a run ends
(60_exceptions.md R222, R225), and what "nothing but these elements changed" means for two states.
-/

namespace Sys2Proof.Machine

/-- The invariant that every `Reset` establishes and every step keeps: the configuration is one `Reset` accepts (00_scope.md R10), memory is
canonical and inside its window (20_memory.md R60), entry 0 of the register file is 0 (10_state.md R35), and `run`, `cause` and `info` agree
(10_state.md R47, 60_exceptions.md R221, R222). -/
structure State.Inv (s : State) : Prop where
  configWf : s.config.wf
  memWf : Memory.wf s.mem
  memInWindow : ∀ c ∈ s.mem, hasByte s.config c.1 = true
  regZero : s.regs[0] = 0#32
  running : s.run = .running → s.cause = .none ∧ s.info = 0#32
  halted : s.run = .halted → s.cause ≠ .none
  exhausted : s.cause = .exhausted → s.info = 0#32
  neverInvalidSize : s.cause ≠ .invalidSize
  neverDuplicate : s.cause ≠ .duplicateRegistration
  misaligned : s.cause = .misalignedJump → s.config.checkMisalignedJump = true ∧ s.info.getLsbD 0 = true

/-- The normal end of a run: Halted with EXHAUSTED (60_exceptions.md R222). -/
abbrev State.endedNormally (s : State) : Prop :=
  s.run = .halted ∧ s.cause = .exhausted

/-- A run that ended with an error: Halted with any other cause (60_exceptions.md R222). -/
abbrev State.endedWithError (s : State) : Prop :=
  s.run = .halted ∧ s.cause ≠ .exhausted ∧ s.cause ≠ .none

/-- Every byte of an access of `n` bytes at `addr` lies in the backing memory; the addresses are integers, without wrap
(20_memory.md R62). -/
def BytesInMemory (c : Config) (addr : Word) (n : Nat) : Prop :=
  ∀ k, k < n → c.memOffset.toNat ≤ addr.toNat + k ∧ addr.toNat + k < c.memOffset.toNat + c.memSize

/-- All four bytes of the word at `pc` lie in the code region (20_memory.md R69). -/
def WordInCode (c : Config) (pc : Word) : Prop :=
  ∀ k, k < 4 → c.codeBase.toNat ≤ pc.toNat + k ∧ pc.toNat + k < c.codeBase.toNat + c.codeLen

/-- The optional target check turns a JAL or taken branch away: the parameter is set and the target is odd (41_control_transfer.md R171). -/
def TargetRefused (c : Config) (target : Word) : Prop :=
  c.checkMisalignedJump = true ∧ target.toNat % 2 = 1

/-- Every general register reads as before, except perhaps `rd`. -/
def SameRegsBut (s t : State) (rd : Reg) : Prop :=
  ∀ r : Reg, r ≠ rd → t.readReg r = s.readReg r

/-- Every general register reads as before. -/
def SameRegs (s t : State) : Prop :=
  ∀ r : Reg, t.readReg r = s.readReg r

/-- Every byte of memory reads as before. -/
def SameMemory (s t : State) : Prop :=
  ∀ a : Nat, Memory.read t.mem a = Memory.read s.mem a

/-- Every byte of memory outside the `n` bytes at address `addr` reads as before. -/
def SameMemoryBut (s t : State) (addr n : Nat) : Prop :=
  ∀ a : Nat, a < addr ∨ addr + n ≤ a → Memory.read t.mem a = Memory.read s.mem a

/-- Run state, halt cause, halt info and the parameters are as before. -/
def SameStatus (s t : State) : Prop :=
  t.run = s.run ∧ t.cause = s.cause ∧ t.info = s.info ∧ t.config = s.config

/-- A register result: `rd` reads `v` (0 where rd is x0, whose write is discarded, 10_state.md R33), every other register, every
byte of memory and the status are as before, and the PC is `next`. -/
def WritesOnly (s t : State) (rd : Reg) (v next : Word) : Prop :=
  t.readReg rd = (if rd = 0#5 then 0#32 else v) ∧ t.pc = next ∧ SameRegsBut s t rd ∧ SameMemory s t ∧ SameStatus s t

/-- A pure transfer of control: the PC is `next` and everything else is as before. -/
def JumpsOnly (s t : State) (next : Word) : Prop :=
  t.pc = next ∧ SameRegs s t ∧ SameMemory s t ∧ SameStatus s t

/-- A precise halt (60_exceptions.md R224): Halted with `cause` and `info`, everything else as before. -/
def HaltsOnly (s t : State) (cause : HaltCause) (info : Word) : Prop :=
  t.run = .halted ∧ t.cause = cause ∧ t.info = info ∧ t.pc = s.pc ∧ SameRegs s t ∧ SameMemory s t ∧ t.config = s.config

end Sys2Proof.Machine
end

