-- ==== Sys2Proof/Certificates/Slice0/Obligations.lean ====
section
/-!
DEFINITION. The statements for the provers. Each docstring names the rule of spec/ it formalises, or the decision or log entry it rests
on. The result statements also say the encoding row (the `decode` clause), the frame (`WritesOnly`, `JumpsOnly`, `HaltsOnly` of
Safety.lean) and that the instruction answers a next state.
-/

open Sys2Proof Sys2Proof.Machine

/-! ## Encoding and decode -/

/-- One word of each family, taken from the examples of spec/ (rules R131, R142, R152, R172, R173, R182, R191, R198, R210, R212), decodes to
the instruction it stands for. Two clauses are the model's choice: that the MISC-MEM word decodes at all, to the constructor that halts, where
R101 and R210 raise InvalidEncoding in Decode and give no record (log entry 6), and that the SYSTEM word is selected in `decode` (log entry 6).
The AUIPC, JAL and BNE words rest on the field places that 30_encoding.md R90 marks as general knowledge (log entry 11). -/
def Obligations.SampleWordsDecode : Prop :=
  decode 0x00108113 = .ok (.addi 2 1 1) ∧
  decode 0x403100B3 = .ok (.sub 1 2 3) ∧
  decode 0x00001097 = .ok (.auipc 1 0x1000) ∧
  decode 0x0100056F = .ok (.jal 10 16) ∧
  decode 0x00A58567 = .ok (.jalr 10 11 10) ∧
  decode 0xFE209EE3 = .ok (.bne 1 2 0xFFFFFFFC) ∧
  decode 0x00008283 = .ok (.lb 5 1 0) ∧
  decode 0xFE209FA3 = .ok (.sh 2 1 0xFFFFFFFF) ∧
  decode 0x0330000F = .ok (.miscMem 0x0330000F) ∧
  decode 0x00100073 = .ok (.system 1 0 0 0)

/-- Every instruction with operands in the range of its encoding decodes from its own word: no bit of an operand is lost. The
MISC-MEM clause is the model's choice (log entry 6), and the field places of the B, U and J formats are presumed (log entry 11). -/
def Obligations.DecodeOfEncodeIsTheInstruction : Prop :=
  ∀ i : Instr, i.wf = true → decode (encode i) = .ok i

/-- Every word that decodes is the word of the instruction it decodes to, and that instruction is well formed: each word has one
meaning and the decoder ignores no bit. The MISC-MEM clause is the model's choice (log entry 6), and the field places of the B, U and J formats
are presumed (log entry 11). -/
def Obligations.EncodeOfDecodeIsTheWord : Prop :=
  ∀ (w : Word) (i : Instr), decode w = .ok i → encode i = w ∧ i.wf = true

/-- Decoding the word an `EncX` of 30_encoding.md R107 produces yields the record of its fields, for every field value and every
immediate in its range. The field places of the B, U and J formats are presumed (log entry 11). -/
def Obligations.RecordsRoundTrip : Prop :=
  (∀ f7 rs2 rs1 f3 rd op, formatOf op = some .r →
    decodeRecord (encR f7 rs2 rs1 f3 rd op) = .ok (.r f7 rs2 rs1 f3 rd op)) ∧
  (∀ imm rs1 f3 rd op, formatOf op = some .i → imm12InRange imm →
    decodeRecord (encI imm rs1 f3 rd op) = .ok (.i imm rs1 f3 rd op)) ∧
  (∀ imm rs2 rs1 f3 op, formatOf op = some .s → imm12InRange imm →
    decodeRecord (encS imm rs2 rs1 f3 op) = .ok (.s imm rs2 rs1 f3 op)) ∧
  (∀ imm rs2 rs1 f3 op, formatOf op = some .b → imm13InRange imm →
    decodeRecord (encB imm rs2 rs1 f3 op) = .ok (.b imm rs2 rs1 f3 op)) ∧
  (∀ (u20 : BitVec 20) rd op, formatOf op = some .u →
    decodeRecord (encU u20 rd op) = .ok (.u (u20 ++ 0#12 : BitVec 32) rd op)) ∧
  (∀ imm rd op, formatOf op = some .j → imm21InRange imm →
    decodeRecord (encJ imm rd op) = .ok (.j imm rd op))

/-- The five immediates of every word as integers, with their ranges: 30_encoding.md R92, R93, R94, R96, R97. -/
def Obligations.ImmediatesOfEveryWord : Prop :=
  ∀ w : Word,
    let sign : Int := if w.getLsbD 31 then 1 else 0
    ((immI w).toInt = (w.toNat / 2 ^ 20 % 2 ^ 11 : Nat) - sign * 2 ^ 11 ∧ -2048 ≤ (immI w).toInt ∧ (immI w).toInt ≤ 2047) ∧
    ((immS w).toInt = (w.toNat / 2 ^ 25 % 2 ^ 6 * 2 ^ 5 + w.toNat / 2 ^ 7 % 2 ^ 5 : Nat) - sign * 2 ^ 11 ∧
      -2048 ≤ (immS w).toInt ∧ (immS w).toInt ≤ 2047) ∧
    ((immB w).toInt = (w.toNat / 2 ^ 7 % 2 * 2 ^ 11 + w.toNat / 2 ^ 25 % 2 ^ 6 * 2 ^ 5 + w.toNat / 2 ^ 8 % 2 ^ 4 * 2 : Nat) - sign * 2 ^ 12 ∧
      -4096 ≤ (immB w).toInt ∧ (immB w).toInt ≤ 4094 ∧ (immB w).toInt % 2 = 0) ∧
    ((immU w).toNat = w.toNat / 2 ^ 12 * 2 ^ 12) ∧
    ((immJ w).toInt =
        (w.toNat / 2 ^ 12 % 2 ^ 8 * 2 ^ 12 + w.toNat / 2 ^ 20 % 2 * 2 ^ 11 + w.toNat / 2 ^ 21 % 2 ^ 10 * 2 : Nat) - sign * 2 ^ 20 ∧
      -1048576 ≤ (immJ w).toInt ∧ (immJ w).toInt ≤ 1048574 ∧ (immJ w).toInt % 2 = 0)

/-- `register_base_iset()` fills the empty mapping with exactly the eleven entries of 30_encoding.md R100, and registering an opcode again
fails with duplicate-registration. -/
def Obligations.OpcodeTableIsTheElevenEntries : Prop :=
  (∃ t : FormatTable, registerBaseIset = .ok t ∧
    ∀ (op : BitVec 7) (f : Format), t.lookup op = some f ↔
      (op, f) ∈ [(3#7, Format.i), (15#7, .reserved), (19#7, .i), (23#7, .u), (35#7, .s), (51#7, .r), (55#7, .u), (99#7, .b), (103#7, .i),
        (111#7, .j), (115#7, .i)]) ∧
  (∀ (t : FormatTable) (op : BitVec 7) (f g : Format), (op, g) ∈ t → registerOpcode t op f = .error .duplicateRegistration)

/-- The opcode of a word is one of the eleven of 30_encoding.md R100. -/
abbrev Sys2Proof.KnownOpcode (w : Word) : Prop :=
  fieldOpcode w ∈ [3#7, 15#7, 19#7, 23#7, 35#7, 51#7, 55#7, 99#7, 103#7, 111#7, 115#7]

/-- The third column of 30_encoding.md R103 for the seven opcodes it gives a condition: the function fields select no instruction. -/
abbrev Sys2Proof.SelectsNothing (w : Word) : Prop :=
  (fieldOpcode w = 0x13#7 ∧
    ((fieldFunct3 w = 1#3 ∧ fieldFunct7 w ≠ 0#7) ∨ (fieldFunct3 w = 5#3 ∧ fieldFunct7 w ≠ 0#7 ∧ fieldFunct7 w ≠ 32#7))) ∨
  (fieldOpcode w = 0x33#7 ∧
    ¬ (fieldFunct7 w = 0#7 ∨ (fieldFunct7 w = 32#7 ∧ (fieldFunct3 w = 0#3 ∨ fieldFunct3 w = 5#3)))) ∨
  (fieldOpcode w = 0x67#7 ∧ fieldFunct3 w ≠ 0#3) ∨
  (fieldOpcode w = 0x63#7 ∧ (fieldFunct3 w = 2#3 ∨ fieldFunct3 w = 3#3)) ∨
  (fieldOpcode w = 0x03#7 ∧ (fieldFunct3 w = 3#3 ∨ fieldFunct3 w = 6#3 ∨ fieldFunct3 w = 7#3)) ∨
  (fieldOpcode w = 0x23#7 ∧ 3 ≤ (fieldFunct3 w).toNat)

/-- Which words the decoder rejects, and how: unknown-opcode exactly for the opcodes outside the table (30_encoding.md R101, R102), and
invalid-encoding exactly for the selections of R103. The words of the two halting groups decode, to the rows that halt (log entry 6).
JALR and BRANCH rest on the spec's decisions D13 and D14, and the place of funct3 in BRANCH is presumed (log entry 11). -/
def Obligations.DecoderRejectsExactly : Prop :=
  ∀ w : Word,
    (decode w = .error (.unknownOpcode w) ↔ ¬ KnownOpcode w) ∧
    (decode w = .error (.invalidEncoding w) ↔ SelectsNothing w) ∧
    ((∃ i, decode w = .ok i) ↔ KnownOpcode w ∧ ¬ SelectsNothing w)

/-! ## Bit utilities -/

/-- Sign extension as an integer: for an N-bit value, `sext_N` keeps its two's-complement value (00_scope.md R12). -/
def Obligations.SextIsTwosComplement : Prop :=
  ∀ (w : Word) (p : Nat), p < 32 → w.toNat < 2 ^ (p + 1) →
    (sext w p).toInt = if w.toNat < 2 ^ p then (w.toNat : Int) else (w.toNat : Int) - 2 ^ (p + 1)

/-- Signed and unsigned reinterpretation undo each other (00_scope.md R13). -/
def Obligations.ReinterpretationRoundTrips : Prop :=
  (∀ x : Int, -2 ^ 31 ≤ x → x < 2 ^ 31 → asSigned (asUnsigned x) = x) ∧
  (∀ v : Word, asUnsigned (asSigned v) = v)

/-! ## Registers -/

/-- A register read gives 0 for x0 and the stored word otherwise, in every state (10_state.md R32), so x0 reads 0 after any write to it
(R35). The write clauses are the other half, for every register. -/
def Obligations.RegisterFileReadsAndWrites : Prop :=
  ∀ (s : State) (i j : Reg) (v : Word),
    s.readReg 0#5 = 0#32 ∧ (i ≠ 0#5 → s.readReg i = s.regs[i.toNat]'i.isLt) ∧ (s.writeReg 0#5 v).readReg 0#5 = 0#32 ∧
    s.writeReg 0#5 v = s ∧ (i ≠ 0#5 → (s.writeReg i v).readReg i = v) ∧ (j ≠ i → (s.writeReg i v).readReg j = s.readReg j) ∧
    (s.writeReg i v).pc = s.pc ∧ (s.writeReg i v).mem = s.mem ∧ SameStatus s (s.writeReg i v)

/-! ## Memory -/

/-- The range check is per byte, on integer addresses (20_memory.md R62, the spec's decision D7): it holds exactly when every byte
touched is in the window, and then, in a configuration `Reset` accepts, no byte lies above 0xFFFFFFFF. -/
def Obligations.RangeCheckIsPerByte : Prop :=
  ∀ (c : Config) (addr : Word) (n : Nat), 0 < n →
    (inRange c addr n = true ↔ BytesInMemory c addr n) ∧
    (c.wf → inRange c addr n = true → addr.toNat + n ≤ 2 ^ 32)

/-- The load primitive assembles `n` bytes little-endian with the high bits zero, and raises OutOfRangeMemory when a byte is out of
range (20_memory.md R66; the check without wrap is the spec's decision D7). -/
def Obligations.MemReadIsLittleEndian : Prop :=
  ∀ (s : State) (addr : Word),
    let b := fun k : Nat => (Memory.read s.mem (addr.toNat + k)).toNat
    (BytesInMemory s.config addr 1 → ∃ v, memRead s addr 1 = .ok v ∧ v.toNat = b 0) ∧
    (BytesInMemory s.config addr 2 → ∃ v, memRead s addr 2 = .ok v ∧ v.toNat = b 0 + 2 ^ 8 * b 1) ∧
    (BytesInMemory s.config addr 4 → ∃ v, memRead s addr 4 = .ok v ∧
      v.toNat = b 0 + 2 ^ 8 * b 1 + 2 ^ 16 * b 2 + 2 ^ 24 * b 3) ∧
    (∀ n, n = 1 ∨ n = 2 ∨ n = 4 → ¬ BytesInMemory s.config addr n → memRead s addr n = .error (.outOfRangeMemory addr))

/-- The store primitive writes exactly the `n` bytes at `addr`, least-significant first, and writes nothing when any byte is out of
range (20_memory.md R67, the spec's decision D8). -/
def Obligations.MemWriteWritesExactlyItsBytes : Prop :=
  ∀ (s : State) (addr : Word) (v : Word) (n : Nat), Memory.wf s.mem → n = 1 ∨ n = 2 ∨ n = 4 →
    (BytesInMemory s.config addr n → ∃ t, memWrite s addr n v = .ok t ∧
      (∀ k, k < n → (Memory.read t.mem (addr.toNat + k)).toNat = v.toNat / 2 ^ (8 * k) % 2 ^ 8) ∧
      SameMemoryBut s t addr.toNat n ∧ SameRegs s t ∧ SameStatus s t ∧ t.pc = s.pc ∧ Memory.wf t.mem) ∧
    (¬ BytesInMemory s.config addr n → memWrite s addr n v = .error (.outOfRangeMemory addr))

/-- A load after a store of the same place and size gives the stored value's low bytes (20_memory.md R68). -/
def Obligations.LoadAfterStoreGivesTheLowBytes : Prop :=
  ∀ (s : State) (addr : Word) (v : Word) (n : Nat), Memory.wf s.mem → n = 1 ∨ n = 2 ∨ n = 4 →
    BytesInMemory s.config addr n →
    ∃ t, memWrite s addr n v = .ok t ∧ memRead t addr n = .ok (v &&& mask (n * 8))

/-- Fetch assembles the four bytes at the PC little-endian, from memory as it is, at any alignment (20_memory.md R70, the spec's
decisions D4, D5). -/
def Obligations.FetchIsLittleEndian : Prop :=
  ∀ s : State,
    (fetchWord s).toNat =
      (Memory.read s.mem s.pc.toNat).toNat + 2 ^ 8 * (Memory.read s.mem (s.pc.toNat + 1)).toNat +
        2 ^ 16 * (Memory.read s.mem (s.pc.toNat + 2)).toNat + 2 ^ 24 * (Memory.read s.mem (s.pc.toNat + 3)).toNat

/-! ## OP-IMM -/

/-- ADDI: 40_integer_computational.md R131. -/
def Obligations.AddImmediateWraps : Prop :=
  (∀ w : Word, fieldOpcode w = 0x13#7 → fieldFunct3 w = 0#3 → decode w = .ok (.addi (fieldRd w) (fieldRs1 w) (immI w))) ∧
  (∀ (rd rs1 : Reg) (imm : Word) (s : State), ∃ t v, exec (.addi rd rs1 imm) s = .next t ∧ WritesOnly s t rd v (s.pc + 4#32) ∧
    v.toNat = ((s.readReg rs1).toNat + imm.toNat) % 2 ^ 32)

/-- SLTI and SLTIU: 40_integer_computational.md R132, R133. That SLTI is funct3 2 and SLTIU funct3 3 is the spec's own resolution of a
conflict, 90_conflicts.md C1 (log entry 12). -/
def Obligations.SetLessThanImmediateCompares : Prop :=
  (∀ w : Word, fieldOpcode w = 0x13#7 →
    (fieldFunct3 w = 2#3 → decode w = .ok (.slti (fieldRd w) (fieldRs1 w) (immI w))) ∧
    (fieldFunct3 w = 3#3 → decode w = .ok (.sltiu (fieldRd w) (fieldRs1 w) (immI w)))) ∧
  (∀ (rd rs1 : Reg) (imm : Word) (s : State),
    (∃ t v, exec (.slti rd rs1 imm) s = .next t ∧ WritesOnly s t rd v (s.pc + 4#32) ∧
      v.toNat = if (s.readReg rs1).toInt < imm.toInt then 1 else 0) ∧
    (∃ t v, exec (.sltiu rd rs1 imm) s = .next t ∧ WritesOnly s t rd v (s.pc + 4#32) ∧
      v.toNat = if (s.readReg rs1).toNat < imm.toNat then 1 else 0))

/-- XORI, ORI, ANDI, bit by bit: 40_integer_computational.md R134, R135, R136. -/
def Obligations.BitwiseImmediateActsOnEachBit : Prop :=
  (∀ w : Word, fieldOpcode w = 0x13#7 →
    (fieldFunct3 w = 4#3 → decode w = .ok (.xori (fieldRd w) (fieldRs1 w) (immI w))) ∧
    (fieldFunct3 w = 6#3 → decode w = .ok (.ori (fieldRd w) (fieldRs1 w) (immI w))) ∧
    (fieldFunct3 w = 7#3 → decode w = .ok (.andi (fieldRd w) (fieldRs1 w) (immI w)))) ∧
  (∀ (rd rs1 : Reg) (imm : Word) (s : State),
    (∃ t v, exec (.xori rd rs1 imm) s = .next t ∧ WritesOnly s t rd v (s.pc + 4#32) ∧
      ∀ k, k < 32 → v.getLsbD k = ((s.readReg rs1).getLsbD k != imm.getLsbD k)) ∧
    (∃ t v, exec (.ori rd rs1 imm) s = .next t ∧ WritesOnly s t rd v (s.pc + 4#32) ∧
      ∀ k, k < 32 → v.getLsbD k = ((s.readReg rs1).getLsbD k || imm.getLsbD k)) ∧
    (∃ t v, exec (.andi rd rs1 imm) s = .next t ∧ WritesOnly s t rd v (s.pc + 4#32) ∧
      ∀ k, k < 32 → v.getLsbD k = ((s.readReg rs1).getLsbD k && imm.getLsbD k)))

/-- SLLI, SRLI, SRAI as integer arithmetic, and the shift words that raise InvalidEncoding: 40_integer_computational.md R137, R138, R139. -/
def Obligations.ShiftImmediateIsArithmetic : Prop :=
  (∀ w : Word, fieldOpcode w = 0x13#7 →
    (fieldFunct3 w = 1#3 → fieldFunct7 w = 0#7 → decode w = .ok (.slli (fieldRd w) (fieldRs1 w) (fieldRs2 w))) ∧
    (fieldFunct3 w = 1#3 → fieldFunct7 w ≠ 0#7 → decode w = .error (.invalidEncoding w)) ∧
    (fieldFunct3 w = 5#3 → fieldFunct7 w = 0#7 → decode w = .ok (.srli (fieldRd w) (fieldRs1 w) (fieldRs2 w))) ∧
    (fieldFunct3 w = 5#3 → fieldFunct7 w = 32#7 → decode w = .ok (.srai (fieldRd w) (fieldRs1 w) (fieldRs2 w))) ∧
    (fieldFunct3 w = 5#3 → fieldFunct7 w ≠ 0#7 → fieldFunct7 w ≠ 32#7 → decode w = .error (.invalidEncoding w))) ∧
  (∀ (rd rs1 : Reg) (shamt : BitVec 5) (s : State),
    (∃ t v, exec (.slli rd rs1 shamt) s = .next t ∧ WritesOnly s t rd v (s.pc + 4#32) ∧
      v.toNat = (s.readReg rs1).toNat * 2 ^ shamt.toNat % 2 ^ 32) ∧
    (∃ t v, exec (.srli rd rs1 shamt) s = .next t ∧ WritesOnly s t rd v (s.pc + 4#32) ∧
      v.toNat = (s.readReg rs1).toNat / 2 ^ shamt.toNat) ∧
    (∃ t v, exec (.srai rd rs1 shamt) s = .next t ∧ WritesOnly s t rd v (s.pc + 4#32) ∧
      v.toInt = (s.readReg rs1).toInt / 2 ^ shamt.toNat))

/-! ## OP -/

/-- ADD and SUB: 40_integer_computational.md R141, R142. -/
def Obligations.AddAndSubWrap : Prop :=
  (∀ w : Word, fieldOpcode w = 0x33#7 → fieldFunct3 w = 0#3 →
    (fieldFunct7 w = 0#7 → decode w = .ok (.add (fieldRd w) (fieldRs1 w) (fieldRs2 w))) ∧
    (fieldFunct7 w = 32#7 → decode w = .ok (.sub (fieldRd w) (fieldRs1 w) (fieldRs2 w)))) ∧
  (∀ (rd rs1 rs2 : Reg) (s : State),
    (∃ t v, exec (.add rd rs1 rs2) s = .next t ∧ WritesOnly s t rd v (s.pc + 4#32) ∧
      v.toNat = ((s.readReg rs1).toNat + (s.readReg rs2).toNat) % 2 ^ 32) ∧
    (∃ t v, exec (.sub rd rs1 rs2) s = .next t ∧ WritesOnly s t rd v (s.pc + 4#32) ∧
      (v.toNat : Int) = ((s.readReg rs1).toNat - (s.readReg rs2).toNat : Int) % 2 ^ 32))

/-- SLT and SLTU: 40_integer_computational.md R144, R145. -/
def Obligations.SetLessThanCompares : Prop :=
  (∀ w : Word, fieldOpcode w = 0x33#7 → fieldFunct7 w = 0#7 →
    (fieldFunct3 w = 2#3 → decode w = .ok (.slt (fieldRd w) (fieldRs1 w) (fieldRs2 w))) ∧
    (fieldFunct3 w = 3#3 → decode w = .ok (.sltu (fieldRd w) (fieldRs1 w) (fieldRs2 w)))) ∧
  (∀ (rd rs1 rs2 : Reg) (s : State),
    (∃ t v, exec (.slt rd rs1 rs2) s = .next t ∧ WritesOnly s t rd v (s.pc + 4#32) ∧
      v.toNat = if (s.readReg rs1).toInt < (s.readReg rs2).toInt then 1 else 0) ∧
    (∃ t v, exec (.sltu rd rs1 rs2) s = .next t ∧ WritesOnly s t rd v (s.pc + 4#32) ∧
      v.toNat = if (s.readReg rs1).toNat < (s.readReg rs2).toNat then 1 else 0))

/-- XOR, OR, AND, bit by bit: 40_integer_computational.md R146, R149, R150. -/
def Obligations.BitwiseActsOnEachBit : Prop :=
  (∀ w : Word, fieldOpcode w = 0x33#7 → fieldFunct7 w = 0#7 →
    (fieldFunct3 w = 4#3 → decode w = .ok (.xor (fieldRd w) (fieldRs1 w) (fieldRs2 w))) ∧
    (fieldFunct3 w = 6#3 → decode w = .ok (.or (fieldRd w) (fieldRs1 w) (fieldRs2 w))) ∧
    (fieldFunct3 w = 7#3 → decode w = .ok (.and (fieldRd w) (fieldRs1 w) (fieldRs2 w)))) ∧
  (∀ (rd rs1 rs2 : Reg) (s : State),
    (∃ t v, exec (.xor rd rs1 rs2) s = .next t ∧ WritesOnly s t rd v (s.pc + 4#32) ∧
      ∀ k, k < 32 → v.getLsbD k = ((s.readReg rs1).getLsbD k != (s.readReg rs2).getLsbD k)) ∧
    (∃ t v, exec (.or rd rs1 rs2) s = .next t ∧ WritesOnly s t rd v (s.pc + 4#32) ∧
      ∀ k, k < 32 → v.getLsbD k = ((s.readReg rs1).getLsbD k || (s.readReg rs2).getLsbD k)) ∧
    (∃ t v, exec (.and rd rs1 rs2) s = .next t ∧ WritesOnly s t rd v (s.pc + 4#32) ∧
      ∀ k, k < 32 → v.getLsbD k = ((s.readReg rs1).getLsbD k && (s.readReg rs2).getLsbD k)))

/-- SLL, SRL, SRA by the low five bits of x[rs2]: 40_integer_computational.md R143, R147, R148. -/
def Obligations.ShiftIsArithmetic : Prop :=
  (∀ w : Word, fieldOpcode w = 0x33#7 →
    (fieldFunct3 w = 1#3 → fieldFunct7 w = 0#7 → decode w = .ok (.sll (fieldRd w) (fieldRs1 w) (fieldRs2 w))) ∧
    (fieldFunct3 w = 5#3 → fieldFunct7 w = 0#7 → decode w = .ok (.srl (fieldRd w) (fieldRs1 w) (fieldRs2 w))) ∧
    (fieldFunct3 w = 5#3 → fieldFunct7 w = 32#7 → decode w = .ok (.sra (fieldRd w) (fieldRs1 w) (fieldRs2 w)))) ∧
  (∀ (rd rs1 rs2 : Reg) (s : State),
    (∃ t v, exec (.sll rd rs1 rs2) s = .next t ∧ WritesOnly s t rd v (s.pc + 4#32) ∧
      v.toNat = (s.readReg rs1).toNat * 2 ^ ((s.readReg rs2).toNat % 32) % 2 ^ 32) ∧
    (∃ t v, exec (.srl rd rs1 rs2) s = .next t ∧ WritesOnly s t rd v (s.pc + 4#32) ∧
      v.toNat = (s.readReg rs1).toNat / 2 ^ ((s.readReg rs2).toNat % 32)) ∧
    (∃ t v, exec (.sra rd rs1 rs2) s = .next t ∧ WritesOnly s t rd v (s.pc + 4#32) ∧
      v.toInt = (s.readReg rs1).toInt / 2 ^ ((s.readReg rs2).toNat % 32)))

/-! ## Upper immediates -/

/-- LUI and AUIPC: 40_integer_computational.md R151, R152. That rd of the U format is `word[11:7]` is presumed (log entry 11): the spec places
it there by the note under 30_encoding.md R90, which says "It is also the standard RV32I placement [from general knowledge, not in source]". -/
def Obligations.UpperImmediateResults : Prop :=
  (∀ w : Word,
    (fieldOpcode w = 0x37#7 → ∃ imm, decode w = .ok (.lui (fieldRd w) imm) ∧ imm.toNat = w.toNat / 2 ^ 12 * 2 ^ 12) ∧
    (fieldOpcode w = 0x17#7 → ∃ imm, decode w = .ok (.auipc (fieldRd w) imm) ∧ imm.toNat = w.toNat / 2 ^ 12 * 2 ^ 12)) ∧
  (∀ (rd : Reg) (imm : Word) (s : State),
    (∃ t, exec (.lui rd imm) s = .next t ∧ WritesOnly s t rd imm (s.pc + 4#32)) ∧
    (∃ t v, exec (.auipc rd imm) s = .next t ∧ WritesOnly s t rd v (s.pc + 4#32) ∧
      v.toNat = (s.pc.toNat + imm.toNat) % 2 ^ 32))

/-! ## Control transfer -/

/-- JAL links `pc + 4` and jumps to `pc + imm`; with the optional check set and an odd target it halts with MISALIGNED_JUMP and writes
nothing: 41_control_transfer.md R172. The wrap, the parameter and the precise halt are the spec's decisions D9, D10, D15, and the place of rd in
the J format is presumed (log entry 11). -/
def Obligations.JalLinksAndJumps : Prop :=
  (∀ w : Word, fieldOpcode w = 0x6F#7 → decode w = .ok (.jal (fieldRd w) (immJ w))) ∧
  (∀ (rd : Reg) (imm : Word) (s : State), ∃ t target link, exec (.jal rd imm) s = .next t ∧
    target.toNat = (s.pc.toNat + imm.toNat) % 2 ^ 32 ∧ link.toNat = (s.pc.toNat + 4) % 2 ^ 32 ∧
    (¬ TargetRefused s.config target → WritesOnly s t rd link target) ∧
    (TargetRefused s.config target → HaltsOnly s t .misalignedJump target))

/-- JALR links `pc + 4` and jumps to the old `x[rs1] + imm` with bit 0 cleared, whatever the parameter: 41_control_transfer.md R173. That
only funct3 0 is JALR is the spec's decision D13, the wrap of the PC D9. -/
def Obligations.JalrLinksAndJumpsEven : Prop :=
  (∀ w : Word, fieldOpcode w = 0x67#7 →
    (fieldFunct3 w = 0#3 → decode w = .ok (.jalr (fieldRd w) (fieldRs1 w) (immI w))) ∧
    (fieldFunct3 w ≠ 0#3 → decode w = .error (.invalidEncoding w))) ∧
  (∀ (rd rs1 : Reg) (imm : Word) (s : State), ∃ t target link, exec (.jalr rd rs1 imm) s = .next t ∧
    target.toNat = ((s.readReg rs1).toNat + imm.toNat) % 2 ^ 32 / 2 * 2 ∧ link.toNat = (s.pc.toNat + 4) % 2 ^ 32 ∧
    WritesOnly s t rd link target)

/-- What a branch with outcome `taken` does to a state: `pc + imm` when taken (or the MISALIGNED_JUMP halt of R171), `pc + 4` when not
(41_control_transfer.md R180). The wrap, the parameter and the precise halt are the spec's decisions D9, D10, D15. -/
def Sys2Proof.Machine.BranchesTo (s t : State) (taken : Prop) (imm : Word) : Prop :=
  ∃ target : Word, target.toNat = (s.pc.toNat + imm.toNat) % 2 ^ 32 ∧
    (taken → ¬ TargetRefused s.config target → JumpsOnly s t target) ∧
    (taken → TargetRefused s.config target → HaltsOnly s t .misalignedJump target) ∧
    (¬ taken → JumpsOnly s t (s.pc + 4#32))

/-- BEQ and BNE: 41_control_transfer.md R181, R182. The places of rs1, rs2 and funct3 in the B format are presumed (log entry 11). -/
def Obligations.EqualityBranches : Prop :=
  (∀ w : Word, fieldOpcode w = 0x63#7 →
    (fieldFunct3 w = 0#3 → decode w = .ok (.beq (fieldRs1 w) (fieldRs2 w) (immB w))) ∧
    (fieldFunct3 w = 1#3 → decode w = .ok (.bne (fieldRs1 w) (fieldRs2 w) (immB w)))) ∧
  (∀ (rs1 rs2 : Reg) (imm : Word) (s : State),
    (∃ t, exec (.beq rs1 rs2 imm) s = .next t ∧ BranchesTo s t (s.readReg rs1 = s.readReg rs2) imm) ∧
    (∃ t, exec (.bne rs1 rs2 imm) s = .next t ∧ BranchesTo s t (s.readReg rs1 ≠ s.readReg rs2) imm))

/-- BLT and BGE, signed: 41_control_transfer.md R183, R184. The places of rs1, rs2 and funct3 in the B format are presumed (log entry 11). -/
def Obligations.SignedBranches : Prop :=
  (∀ w : Word, fieldOpcode w = 0x63#7 →
    (fieldFunct3 w = 4#3 → decode w = .ok (.blt (fieldRs1 w) (fieldRs2 w) (immB w))) ∧
    (fieldFunct3 w = 5#3 → decode w = .ok (.bge (fieldRs1 w) (fieldRs2 w) (immB w)))) ∧
  (∀ (rs1 rs2 : Reg) (imm : Word) (s : State),
    (∃ t, exec (.blt rs1 rs2 imm) s = .next t ∧ BranchesTo s t ((s.readReg rs1).toInt < (s.readReg rs2).toInt) imm) ∧
    (∃ t, exec (.bge rs1 rs2 imm) s = .next t ∧ BranchesTo s t ((s.readReg rs2).toInt ≤ (s.readReg rs1).toInt) imm))

/-- BLTU and BGEU, unsigned: 41_control_transfer.md R185, R186. The places of rs1, rs2 and funct3 in the B format are presumed (log entry 11). -/
def Obligations.UnsignedBranches : Prop :=
  (∀ w : Word, fieldOpcode w = 0x63#7 →
    (fieldFunct3 w = 6#3 → decode w = .ok (.bltu (fieldRs1 w) (fieldRs2 w) (immB w))) ∧
    (fieldFunct3 w = 7#3 → decode w = .ok (.bgeu (fieldRs1 w) (fieldRs2 w) (immB w)))) ∧
  (∀ (rs1 rs2 : Reg) (imm : Word) (s : State),
    (∃ t, exec (.bltu rs1 rs2 imm) s = .next t ∧ BranchesTo s t ((s.readReg rs1).toNat < (s.readReg rs2).toNat) imm) ∧
    (∃ t, exec (.bgeu rs1 rs2 imm) s = .next t ∧ BranchesTo s t ((s.readReg rs2).toNat ≤ (s.readReg rs1).toNat) imm))

/-! ## Loads and stores -/

/-- What a load of `n` bytes at `addr` with result `v` does: the register write where every byte is in memory, else the precise halt with
OUT_OF_RANGE_MEMORY and the address (42_load_store.md R190). The check without wrap, the precise halt and the access of a load into x0 are the
spec's decisions D7, D15, D18. -/
def Sys2Proof.Machine.LoadsTo (s t : State) (rd : Reg) (addr : Word) (n : Nat) (v : Word) : Prop :=
  (BytesInMemory s.config addr n → WritesOnly s t rd v (s.pc + 4#32)) ∧
  (¬ BytesInMemory s.config addr n → HaltsOnly s t .outOfRangeMemory addr)

/-- LB and LH sign-extend from bit 7 and bit 15: 42_load_store.md R191, R192. A load into x0 still makes its access. -/
def Obligations.SignedLoadsExtend : Prop :=
  (∀ w : Word, fieldOpcode w = 0x03#7 →
    (fieldFunct3 w = 0#3 → decode w = .ok (.lb (fieldRd w) (fieldRs1 w) (immI w))) ∧
    (fieldFunct3 w = 1#3 → decode w = .ok (.lh (fieldRd w) (fieldRs1 w) (immI w)))) ∧
  (∀ (rd rs1 : Reg) (imm : Word) (s : State), ∃ addr : Word, addr.toNat = ((s.readReg rs1).toNat + imm.toNat) % 2 ^ 32 ∧
    (∃ t v, exec (.lb rd rs1 imm) s = .next t ∧ LoadsTo s t rd addr 1 v ∧
      v.toInt = (Memory.read s.mem addr.toNat).toInt) ∧
    (∃ t v, exec (.lh rd rs1 imm) s = .next t ∧ LoadsTo s t rd addr 2 v ∧
      v.toInt = (Memory.read s.mem (addr.toNat + 1) ++ Memory.read s.mem addr.toNat : BitVec 16).toInt))

/-- LBU and LHU zero-extend: 42_load_store.md R194, R195. -/
def Obligations.UnsignedLoadsExtend : Prop :=
  (∀ w : Word, fieldOpcode w = 0x03#7 →
    (fieldFunct3 w = 4#3 → decode w = .ok (.lbu (fieldRd w) (fieldRs1 w) (immI w))) ∧
    (fieldFunct3 w = 5#3 → decode w = .ok (.lhu (fieldRd w) (fieldRs1 w) (immI w)))) ∧
  (∀ (rd rs1 : Reg) (imm : Word) (s : State), ∃ addr : Word, addr.toNat = ((s.readReg rs1).toNat + imm.toNat) % 2 ^ 32 ∧
    (∃ t v, exec (.lbu rd rs1 imm) s = .next t ∧ LoadsTo s t rd addr 1 v ∧ v.toNat = (Memory.read s.mem addr.toNat).toNat) ∧
    (∃ t v, exec (.lhu rd rs1 imm) s = .next t ∧ LoadsTo s t rd addr 2 v ∧
      v.toNat = (Memory.read s.mem addr.toNat).toNat + 2 ^ 8 * (Memory.read s.mem (addr.toNat + 1)).toNat))

/-- LW reads four bytes, at any alignment: 42_load_store.md R193. -/
def Obligations.WordLoadReadsFourBytes : Prop :=
  (∀ w : Word, fieldOpcode w = 0x03#7 → fieldFunct3 w = 2#3 → decode w = .ok (.lw (fieldRd w) (fieldRs1 w) (immI w))) ∧
  (∀ (rd rs1 : Reg) (imm : Word) (s : State), ∃ addr : Word, addr.toNat = ((s.readReg rs1).toNat + imm.toNat) % 2 ^ 32 ∧
    ∃ t v, exec (.lw rd rs1 imm) s = .next t ∧ LoadsTo s t rd addr 4 v ∧
      v.toNat = (Memory.read s.mem addr.toNat).toNat + 2 ^ 8 * (Memory.read s.mem (addr.toNat + 1)).toNat +
        2 ^ 16 * (Memory.read s.mem (addr.toNat + 2)).toNat + 2 ^ 24 * (Memory.read s.mem (addr.toNat + 3)).toNat)

/-- What a store of the low `n` bytes of `v` at `addr` does: exactly these bytes where all are in memory, else the precise halt with no
byte written (42_load_store.md R196). The check without wrap, the whole check first and the precise halt are the spec's decisions D7, D8, D15. -/
def Sys2Proof.Machine.StoresTo (s t : State) (addr v : Word) (n : Nat) : Prop :=
  (BytesInMemory s.config addr n →
    (∀ k, k < n → (Memory.read t.mem (addr.toNat + k)).toNat = v.toNat / 2 ^ (8 * k) % 2 ^ 8) ∧
    SameMemoryBut s t addr.toNat n ∧ SameRegs s t ∧ SameStatus s t ∧ t.pc = s.pc + 4#32) ∧
  (¬ BytesInMemory s.config addr n → HaltsOnly s t .outOfRangeMemory addr)

/-- SB, SH, SW store the low 1, 2, 4 bytes of x[rs2] at `x[rs1] + imm`, least-significant first: 42_load_store.md R197, R198, R199. The
premise is the canonical form of memory, which `InvariantKeptByEveryStep` keeps. -/
def Obligations.StoresWriteTheirBytes : Prop :=
  (∀ w : Word, fieldOpcode w = 0x23#7 →
    (fieldFunct3 w = 0#3 → decode w = .ok (.sb (fieldRs2 w) (fieldRs1 w) (immS w))) ∧
    (fieldFunct3 w = 1#3 → decode w = .ok (.sh (fieldRs2 w) (fieldRs1 w) (immS w))) ∧
    (fieldFunct3 w = 2#3 → decode w = .ok (.sw (fieldRs2 w) (fieldRs1 w) (immS w)))) ∧
  (∀ (rs2 rs1 : Reg) (imm : Word) (s : State), Memory.wf s.mem →
    (s.effectiveAddr rs1 imm).toNat = ((s.readReg rs1).toNat + imm.toNat) % 2 ^ 32 ∧
    (∃ t, exec (.sb rs2 rs1 imm) s = .next t ∧ StoresTo s t (s.effectiveAddr rs1 imm) (s.readReg rs2) 1) ∧
    (∃ t, exec (.sh rs2 rs1 imm) s = .next t ∧ StoresTo s t (s.effectiveAddr rs1 imm) (s.readReg rs2) 2) ∧
    (∃ t, exec (.sw rs2 rs1 imm) s = .next t ∧ StoresTo s t (s.effectiveAddr rs1 imm) (s.readReg rs2) 4))

/-- A word stored over the bytes at an address is what a later fetch at that address reads, with nothing in between (20_memory.md R81, the
spec's decision D4). -/
def Obligations.StoredWordIsFetched : Prop :=
  ∀ (rs2 rs1 : Reg) (imm : Word) (s t u : State), Memory.wf s.mem → BytesInMemory s.config (s.effectiveAddr rs1 imm) 4 →
    exec (.sw rs2 rs1 imm) s = .next t → u.mem = t.mem → u.pc = s.effectiveAddr rs1 imm → fetchWord u = s.readReg rs2

/-! ## The two halting groups and illegal words -/

/-- Every MISC-MEM and every SYSTEM word halts with INVALID_ENCODING and the word as info, and nothing else changes (43_misc_mem_system.md
R210, R212, the spec's decisions D11, D12; that MISC-MEM has a constructor is log entry 6, the SYSTEM word is log entry 7). -/
def Obligations.HaltingGroupsHalt : Prop :=
  ∀ (w : Word) (s : State),
    (fieldOpcode w = 0x0F#7 → ∃ t, decode w = .ok (.miscMem w) ∧ exec (.miscMem w) s = .next t ∧ HaltsOnly s t .invalidEncoding w) ∧
    (fieldOpcode w = 0x73#7 → ∃ t,
      decode w = .ok (.system (immI w) (fieldRs1 w) (fieldFunct3 w) (fieldRd w)) ∧
      exec (.system (immI w) (fieldRs1 w) (fieldFunct3 w) (fieldRd w)) s = .next t ∧ HaltsOnly s t .invalidEncoding w)

/-- The cause a halting step reports is the first failing check, in the order fetch, opcode, selection, execute (60_exceptions.md R226, the
spec's decision D21), with the info of R221. -/
def Obligations.FirstFailingCheckIsReported : Prop :=
  ∀ s t : State, step s = .next t → t.run = .halted →
    (¬ WordInCode s.config s.pc → t.cause = .exhausted ∧ t.info = 0#32) ∧
    (WordInCode s.config s.pc → ¬ KnownOpcode (fetchWord s) → t.cause = .unknownOpcode ∧ t.info = fetchWord s) ∧
    (WordInCode s.config s.pc →
      SelectsNothing (fetchWord s) ∨ fieldOpcode (fetchWord s) = 0x0F#7 ∨ fieldOpcode (fetchWord s) = 0x73#7 →
      t.cause = .invalidEncoding ∧ t.info = fetchWord s) ∧
    (WordInCode s.config s.pc → KnownOpcode (fetchWord s) → ¬ SelectsNothing (fetchWord s) →
      fieldOpcode (fetchWord s) ≠ 0x0F#7 → fieldOpcode (fetchWord s) ≠ 0x73#7 →
      (t.cause = .outOfRangeMemory ∧
        ((fieldOpcode (fetchWord s) = 0x03#7 ∧ t.info = s.effectiveAddr (fieldRs1 (fetchWord s)) (immI (fetchWord s))) ∨
          (fieldOpcode (fetchWord s) = 0x23#7 ∧ t.info = s.effectiveAddr (fieldRs1 (fetchWord s)) (immS (fetchWord s))))) ∨
      (t.cause = .misalignedJump ∧
        ((fieldOpcode (fetchWord s) = 0x6F#7 ∧ t.info = s.pc + immJ (fetchWord s)) ∨
          (fieldOpcode (fetchWord s) = 0x63#7 ∧ t.info = s.pc + immB (fetchWord s)))))

/-- A Running block whose word at the PC is illegal halts precisely on that step: UNKNOWN_OPCODE or INVALID_ENCODING with the word
(60_exceptions.md R221, R224; the spec's decisions D11 to D15). -/
def Obligations.IllegalWordHaltsTheStep : Prop :=
  ∀ s : State, s.run = .running → WordInCode s.config s.pc →
    (¬ KnownOpcode (fetchWord s) → ∃ t, step s = .next t ∧ HaltsOnly s t .unknownOpcode (fetchWord s)) ∧
    (SelectsNothing (fetchWord s) ∨ fieldOpcode (fetchWord s) = 0x0F#7 ∨ fieldOpcode (fetchWord s) = 0x73#7 →
      ∃ t, step s = .next t ∧ HaltsOnly s t .invalidEncoding (fetchWord s))

/-- The codes of the halt causes are the spec's (60_exceptions.md R222, decision D16), no two causes share one, and the host's exit status is zero
exactly for EXHAUSTED (R225). -/
def Obligations.HaltCodesAndExitStatus : Prop :=
  HaltCause.none.code = 0 ∧ HaltCause.exhausted.code = 1 ∧ HaltCause.unknownOpcode.code = 2 ∧ HaltCause.invalidEncoding.code = 3 ∧
  HaltCause.outOfRangeMemory.code = 4 ∧ HaltCause.invalidSize.code = 5 ∧ HaltCause.misalignedJump.code = 6 ∧
  HaltCause.duplicateRegistration.code = 7 ∧ (∀ c d : HaltCause, c.code = d.code → c = d) ∧
  (∀ c : HaltCause, c.exitStatus = some .zero ↔ c = .exhausted) ∧ (∀ c : HaltCause, c.exitStatus = none ↔ c = .none)

/-! ## The step -/

/-- A step of a Running block runs the instruction that the four bytes at the PC, little-endian, decode to; nothing is added around it
(10_state.md R48). -/
def Obligations.StepRunsTheDecodedInstruction : Prop :=
  ∀ (s : State) (i : Instr), s.run = .running → WordInCode s.config s.pc →
    decode (Memory.read s.mem (s.pc.toNat + 3) ++ Memory.read s.mem (s.pc.toNat + 2) ++ Memory.read s.mem (s.pc.toNat + 1) ++
      Memory.read s.mem s.pc.toNat : BitVec 32) = .ok i →
    step s = exec i s

/-- A step of a Running block over the encoding of a well-formed instruction, wherever it lies in the code, is that instruction's
execution (10_state.md R48, 30_encoding.md R107). -/
def Obligations.StepRunsTheEncodedInstruction : Prop :=
  ∀ (s : State) (i : Instr), s.run = .running → WordInCode s.config s.pc → i.wf = true →
    (∀ k, k < 4 → Memory.read s.mem (s.pc.toNat + k) = (encode i).extractLsb' (8 * k) 8) →
    step s = exec i s

/-- A fetch outside the code region, even by one byte, ends the run with EXHAUSTED and info 0 and changes nothing else (10_state.md R48,
20_memory.md R69, the spec's decision D3). -/
def Obligations.FetchOutsideCodeEndsTheRun : Prop :=
  ∀ s : State, s.run = .running → ¬ WordInCode s.config s.pc → ∃ t, step s = .next t ∧ HaltsOnly s t .exhausted 0#32

/-- A step answers a next state exactly when the block is Running; a Halted block has no step (10_state.md R46, R48; that the model refuses
the request is log entry 4). -/
def Obligations.StepAnswersExactlyWhenRunning : Prop :=
  ∀ s : State, (∃ t, step s = .next t) ↔ s.run = .running

/-- A step that halts changes nothing but run, cause and info, and its cause is one the block produces (60_exceptions.md R221, R224, the
spec's decision D15). -/
def Obligations.HaltsArePrecise : Prop :=
  ∀ s t : State, step s = .next t → t.run = .halted →
    HaltsOnly s t t.cause t.info ∧
    (t.cause = .exhausted ∨ t.cause = .unknownOpcode ∨ t.cause = .invalidEncoding ∨ t.cause = .outOfRangeMemory ∨ t.cause = .misalignedJump)

/-- Cause and info are written only when the run state becomes Halted (10_state.md R47), and no step writes the parameters. -/
def Obligations.StatusIsWrittenOnlyByHalting : Prop :=
  ∀ s t : State, step s = .next t →
    t.config = s.config ∧ (t.run = .running → t.cause = s.cause ∧ t.info = s.info)

/-- A step writes at most the register that the rd field of the fetched word names (10_state.md R34, which the spec marks as derived; the place
of rd in the U and J formats is presumed, log entry 11). -/
def Obligations.StepWritesAtMostRd : Prop :=
  ∀ s t : State, step s = .next t → SameRegsBut s t (fieldRd (fetchWord s))

/-- Only a word of opcode STORE changes memory, and then only within four bytes from its effective address (20_memory.md R73, 42_load_store.md
R196). -/
def Obligations.OnlyStoresChangeMemory : Prop :=
  ∀ s t : State, Memory.wf s.mem → step s = .next t →
    (fieldOpcode (fetchWord s) ≠ 0x23#7 → SameMemory s t) ∧
    SameMemoryBut s t (s.effectiveAddr (fieldRs1 (fetchWord s)) (immS (fetchWord s))).toNat 4

/-- A committed step of any instruction but a jump or a branch advances the PC by 4 modulo 2^32, so an aligned PC stays aligned
(10_state.md R42, R44; the wrap is the spec's decision D9). -/
def Obligations.PcAdvancesByFour : Prop :=
  ∀ s t : State, step s = .next t → t.run = .running →
    fieldOpcode (fetchWord s) ≠ 0x6F#7 → fieldOpcode (fetchWord s) ≠ 0x67#7 → fieldOpcode (fetchWord s) ≠ 0x63#7 →
    t.pc.toNat = (s.pc.toNat + 4) % 2 ^ 32 ∧ t.pc.toNat % 4 = s.pc.toNat % 4

/-- An even PC stays even: every target immediate is even and JALR clears bit 0 (41_control_transfer.md R171, R173). -/
def Obligations.EvenPcStaysEven : Prop :=
  ∀ s t : State, step s = .next t → s.pc.toNat % 2 = 0 → t.pc.toNat % 2 = 0

/-- From an even PC no step raises MISALIGNED_JUMP, whatever the parameter (41_control_transfer.md R171, 90_conflicts.md C12). -/
def Obligations.EvenPcNeverMisaligned : Prop :=
  ∀ s t : State, step s = .next t → s.pc.toNat % 2 = 0 → t.run = .halted → t.cause ≠ .misalignedJump

/-! ## Reset, observation and the invariant -/

/-- `Reset(config)` is accepted exactly under the constraints of 00_scope.md R10 and establishes the state of 70_reset_and_hazards.md R260: every register
0, the PC at `PC0`, code bytes and `MEM_INIT` in memory, Running, cause NONE, info 0 (the spec's decision D22; the list form of `MEM_INIT` is log
entry 3). -/
def Obligations.ResetEstablishesTheResetState : Prop :=
  ∀ l : Load,
    ((∃ s, resetBlock l = .next s) ↔
      l.config.memOffset.toNat + l.config.memSize ≤ 2 ^ 32 ∧ l.config.memOffset.toNat ≤ l.config.codeBase.toNat ∧
      l.config.codeBase.toNat + l.config.codeLen ≤ l.config.memOffset.toNat + l.config.memSize ∧
      l.codeBytes.length = l.config.codeLen) ∧
    (∀ s, resetBlock l = .next s →
      s.config = l.config ∧ (∀ r, s.readReg r = 0#32) ∧ s.pc = l.pc0 ∧ s.run = .running ∧ s.cause = .none ∧ s.info = 0#32 ∧
      (∀ k, k < l.config.codeLen → some (Memory.read s.mem (l.config.codeBase.toNat + k)) = l.codeBytes[k]?) ∧
      (∀ a, l.config.memOffset.toNat ≤ a → a < l.config.memOffset.toNat + l.config.memSize →
        a < l.config.codeBase.toNat ∨ l.config.codeBase.toNat + l.config.codeLen ≤ a →
        Memory.read s.mem a = Memory.read l.memInit a))

/-- The invariant holds after every accepted `Reset`, the reference one included. The reference configuration of `State.reset` is the model's
choice (log entry 2). -/
def Obligations.InvariantHoldsAfterReset : Prop :=
  State.reset.Inv ∧ ∀ (l : Load) (s : State), resetBlock l = .next s → s.Inv

/-- Every step keeps the invariant: the configuration stays one that `Reset` accepts, memory stays canonical and inside its window, entry 0 of the
register file stays 0, and run, cause and info keep agreeing (10_state.md R35, R47; 20_memory.md R60; 60_exceptions.md R221). -/
def Obligations.InvariantKeptByEveryStep : Prop :=
  ∀ s t : State, s.Inv → step s = .next t → t.Inv

/-- `Observe()` shows the whole state: two states of one configuration that meet the invariant and look alike are equal, so no other state
exists (10_state.md R45, R49). -/
def Obligations.ObservationDeterminesTheState : Prop :=
  ∀ s t : State, s.Inv → t.Inv → s.config = t.config → observe s = observe t → s = t

/-- The word that `withFetchWord` loads is the one the next step fetches, for every PC where a word fits below 2^32 (log entry 8: the model's stand-in
for a load by the host). -/
def Obligations.LoadedWordIsTheNextFetch : Prop :=
  ∀ (s : State) (w : Nat), Memory.wf s.mem → s.pc.toNat + 4 ≤ 2 ^ 32 →
    fetchWord (s.withFetchWord 32 w) = BitVec.ofNat 32 w ∧ WordInCode (s.withFetchWord 32 w).config (s.withFetchWord 32 w).pc ∧
    (s.withFetchWord 32 w).run = .running ∧ (∀ r, (s.withFetchWord 32 w).readReg r = s.readReg r) ∧
    (s.config.wf → (s.withFetchWord 32 w).config.wf)
end

