-- ==== Sys2Proof/Laws/Bits.lean ====
section
/-!
SUPPORT. The Bit Utilities against Lean's own bit-vector operations: sign extension, signed reading, comparisons, bit ranges.
-/

namespace Sys2Proof.Machine

/-- Bit `i` of the mask `2^n - 1`. -/
theorem getLsbD_mask (n i : Nat) : (mask n).getLsbD i = (decide (i < 32) && decide (i < n)) := by
  simp [mask, BitVec.getLsbD_ofNat, Nat.testBit_two_pow_sub_one]

/-- `sext` bit by bit (00_scope.md R12). -/
theorem getLsbD_sext (w : Word) (p i : Nat) :
    (sext w p).getLsbD i = (w.getLsbD i || (w.getLsbD p && decide (p < i) && decide (i < 32))) := by
  unfold sext
  split
  · rename_i h
    simp only [BitVec.getLsbD_or, BitVec.getLsbD_not, getLsbD_mask, h]
    by_cases h32 : i < 32 <;> by_cases hp : i < p + 1 <;>
      simp [h32, hp, show (p < i) ↔ ¬ (i < p + 1) by omega]
  · rename_i h
    simp [h]

/-- `sext_N` is two's-complement sign extension from N bits to 32 (00_scope.md R12). -/
theorem sextN_eq_signExtend {n : Nat} (v : BitVec n) (h0 : 0 < n) (h32 : n ≤ 32) : sextN v = v.signExtend 32 := by
  apply BitVec.eq_of_getLsbD_eq
  intro i hi
  simp only [sextN, getLsbD_sext, BitVec.getLsbD_setWidth, BitVec.getLsbD_signExtend, BitVec.msb_eq_getLsbD_last]
  by_cases h : i < n
  · have : ¬ (n - 1 < i) := by omega
    simp [hi, h, this]
  · have h1 : n - 1 < i := by omega
    have h2 : v.getLsbD i = false := BitVec.getLsbD_of_ge v i (by omega)
    have h3 : n - 1 < 32 := by omega
    simp [hi, h, h1, h2, h3]

/-- `signed(v)` is Lean's `toInt` (00_scope.md R13). -/
theorem asSigned_eq_toInt (v : Word) : asSigned v = v.toInt := by
  unfold asSigned
  rw [BitVec.toInt_eq_toNat_cond]
  split <;> split <;> omega

theorem ltSigned_iff (a b : Word) : ltSigned a b = true ↔ a.toInt < b.toInt := by
  simp [ltSigned, asSigned_eq_toInt]

theorem ltUnsigned_iff (a b : Word) : ltUnsigned a b = true ↔ a.toNat < b.toNat := by
  simp [ltUnsigned]

@[simp] theorem boolWord_true : boolWord true = 1#32 := rfl
@[simp] theorem boolWord_false : boolWord false = 0#32 := rfl

/-- A register shift amount is the value modulo 32 (40_integer_computational.md R140). -/
theorem shiftAmount_bits (v : Word) : (v.extractLsb' 0 5 : BitVec 5).toNat = v.toNat % 32 := by
  simp [BitVec.extractLsb'_toNat]

end Sys2Proof.Machine
end

