-- ==== Sys2Proof/Laws/Memory.lean ====
section
/-!
SUPPORT. The laws of the byte memory: reading after writing, the canonical form kept by every operation, equal memories are equal
lists, and the little-endian accessors (20_memory.md R66 to R68).
-/

namespace Sys2Proof.Machine

@[simp] theorem Memory.read_nil (k : Nat) : Memory.read [] k = Memory.unlisted := rfl

/-- An address below every listed one reads as unlisted. -/
theorem Memory.read_of_forall_lt {m : Memory} {k : Nat} (h : ∀ c ∈ m, k < c.1) : Memory.read m k = Memory.unlisted := by
  induction m with
  | nil => rfl
  | cons c rest ih =>
    obtain ⟨a, b⟩ := c
    have ha : k < a := h (a, b) (by simp)
    simp only [Memory.read, if_neg (Nat.ne_of_gt ha)]
    exact ih fun c hc => h c (by simp [hc])

theorem Memory.wf_cons {a : Nat} {b : Byte} {m : Memory} :
    Memory.wf ((a, b) :: m) ↔ b ≠ Memory.unlisted ∧ (∀ c ∈ m, a < c.1) ∧ Memory.wf m := by
  simp only [Memory.wf, List.pairwise_cons, List.mem_cons, forall_eq_or_imp]
  tauto

theorem Memory.wf_nil : Memory.wf [] := by simp [Memory.wf]

/-- The keys a write leaves. -/
theorem Memory.mem_write {m : Memory} {k : Nat} {v : Byte} {c : Host.Cell} (h : c ∈ Memory.write m k v) :
    c ∈ m ∨ c.1 = k := by
  induction m with
  | nil =>
    simp only [Memory.write, Memory.cons] at h
    split at h <;> simp_all
  | cons d rest ih =>
    obtain ⟨a, b⟩ := d
    simp only [Memory.write, Memory.cons] at h
    split at h
    · split at h
      · exact .inl h
      · rcases List.mem_cons.1 h with rfl | h
        · exact .inr rfl
        · exact .inl h
    · split at h
      · split at h
        · exact .inl (List.mem_cons_of_mem _ h)
        · rcases List.mem_cons.1 h with rfl | h
          · exact .inr rfl
          · exact .inl (List.mem_cons_of_mem _ h)
      · rcases List.mem_cons.1 h with rfl | h
        · exact .inl (by simp)
        · rcases ih h with h | h
          · exact .inl (List.mem_cons_of_mem _ h)
          · exact .inr h

/-- A write keeps the canonical form. -/
theorem Memory.write_wf {m : Memory} (h : Memory.wf m) (k : Nat) (v : Byte) : Memory.wf (Memory.write m k v) := by
  induction m with
  | nil =>
    simp only [Memory.write, Memory.cons]
    split
    · exact h
    · rename_i hv; exact Memory.wf_cons.2 ⟨hv, by simp, h⟩
  | cons d rest ih =>
    obtain ⟨a, b⟩ := d
    obtain ⟨hb, hlt, hr⟩ := Memory.wf_cons.1 h
    simp only [Memory.write, Memory.cons]
    split
    · rename_i hka
      split
      · exact h
      · rename_i hv
        refine Memory.wf_cons.2 ⟨hv, fun c hc => ?_, h⟩
        rcases List.mem_cons.1 hc with rfl | hc
        · exact hka
        · exact Nat.lt_trans hka (hlt c hc)
    · split
      · rename_i hka
        split
        · exact hr
        · rename_i hv; exact Memory.wf_cons.2 ⟨hv, fun c hc => hka ▸ hlt c hc, hr⟩
      · rename_i h1 h2
        refine Memory.wf_cons.2 ⟨hb, fun c hc => ?_, ih hr⟩
        rcases Memory.mem_write hc with hc | hc
        · exact hlt c hc
        · omega

/-- A byte read after a write of one byte. -/
theorem Memory.read_write {m : Memory} (h : Memory.wf m) (k j : Nat) (v : Byte) :
    Memory.read (Memory.write m k v) j = if j = k then v else Memory.read m j := by
  induction m with
  | nil =>
    simp only [Memory.write, Memory.cons]
    split
    · rename_i hv; split <;> simp [hv]
    · simp only [Memory.read]; simp only [eq_comm]
  | cons d rest ih =>
    obtain ⟨a, b⟩ := d
    obtain ⟨hb, hlt, hr⟩ := Memory.wf_cons.1 h
    simp only [Memory.write, Memory.cons]
    split
    · rename_i hka
      split
      · rename_i hv
        split
        · rename_i hj
          subst hj; rw [hv]
          refine Memory.read_of_forall_lt fun c hc => ?_
          rcases List.mem_cons.1 hc with rfl | hc
          · exact hka
          · exact Nat.lt_trans hka (hlt c hc)
        · rfl
      · simp only [Memory.read, eq_comm]
    · split
      · rename_i hka
        subst hka
        split
        · rename_i hv
          by_cases hj : j = k
          · subst hj; simp only [if_true]; rw [hv]
            exact Memory.read_of_forall_lt hlt
          · simp only [if_neg hj, Memory.read, if_neg (Ne.symm hj)]
        · by_cases hj : j = k
          · subst hj; simp [Memory.read]
          · simp [Memory.read, hj, Ne.symm hj]
      · rename_i h1 h2
        by_cases hj : a = j
        · subst hj
          have : a ≠ k := Ne.symm h2
          simp [Memory.read, this]
        · simp only [Memory.read, if_neg hj, ih hr]

/-- Two canonical memories that read alike are the same list. -/
theorem Memory.ext_of_read {m m' : Memory} (h : Memory.wf m) (h' : Memory.wf m')
    (hr : ∀ a, Memory.read m a = Memory.read m' a) : m = m' := by
  induction m generalizing m' with
  | nil =>
    cases m' with
    | nil => rfl
    | cons d rest =>
      obtain ⟨a, b⟩ := d
      have := hr a
      simp only [Memory.read, if_true] at this
      exact absurd this.symm (Memory.wf_cons.1 h').1
  | cons c rest ih =>
    obtain ⟨a, b⟩ := c
    obtain ⟨hb, hlt, hw⟩ := Memory.wf_cons.1 h
    cases m' with
    | nil =>
      have := hr a
      simp only [Memory.read, if_true] at this
      exact absurd this hb
    | cons d rest' =>
      obtain ⟨a', b'⟩ := d
      obtain ⟨hb', hlt', hw'⟩ := Memory.wf_cons.1 h'
      have haa : a = a' := by
        rcases Nat.lt_trichotomy a a' with hlt1 | heq | hgt1
        · have h1 := hr a
          rw [Memory.read_of_forall_lt (m := (a', b') :: rest') (k := a)] at h1
          · simp only [Memory.read, if_true] at h1; exact absurd h1 hb
          · intro c hc
            rcases List.mem_cons.1 hc with rfl | hc
            · exact hlt1
            · exact Nat.lt_trans hlt1 (hlt' c hc)
        · exact heq
        · have h1 := hr a'
          rw [Memory.read_of_forall_lt (m := (a, b) :: rest) (k := a')] at h1
          · simp only [Memory.read, if_true] at h1; exact absurd h1.symm hb'
          · intro c hc
            rcases List.mem_cons.1 hc with rfl | hc
            · exact hgt1
            · exact Nat.lt_trans hgt1 (hlt c hc)
      subst haa
      have hbb : b = b' := by have := hr a; simpa only [Memory.read, if_true] using this
      subst hbb
      congr 1
      refine ih hw hw' fun k => ?_
      by_cases hk : a = k
      · subst hk
        rw [Memory.read_of_forall_lt hlt, Memory.read_of_forall_lt hlt']
      · have := hr k
        simpa only [Memory.read, if_neg hk] using this

/-! ## Little-endian accessors -/

/-- A store keeps the canonical form. -/
theorem Memory.writeLE_wf {m : Memory} (h : Memory.wf m) (a : Nat) (v : Word) (n : Nat) :
    Memory.wf (Memory.writeLE m a v n) := by
  induction n with
  | zero => exact h
  | succ n ih => exact Memory.write_wf ih _ _

/-- A load of code bytes keeps the canonical form. -/
theorem Memory.writeBytes_wf {m : Memory} (h : Memory.wf m) (a : Nat) (bs : List Byte) :
    Memory.wf (Memory.writeBytes m a bs) := by
  induction bs generalizing m a with
  | nil => exact h
  | cons b rest ih => exact ih (Memory.write_wf h _ _) _

/-- What a store leaves at each address: 20_memory.md R67. -/
theorem Memory.read_writeLE {m : Memory} (h : Memory.wf m) (a : Nat) (v : Word) (n j : Nat) :
    Memory.read (Memory.writeLE m a v n) j =
      if a ≤ j ∧ j < a + n then v.extractLsb' (8 * (j - a)) 8 else Memory.read m j := by
  induction n with
  | zero =>
    simp [Memory.writeLE]
  | succ n ih =>
    rw [Memory.writeLE, Memory.read_write (Memory.writeLE_wf h a v n), ih]
    by_cases hj : j = a + n
    · subst hj
      have h1 : a ≤ a + n ∧ a + n < a + (n + 1) := by omega
      have h2 : a + n - a = n := by omega
      simp [h1, h2]
    · have : (a ≤ j ∧ j < a + n) ↔ (a ≤ j ∧ j < a + (n + 1)) := by omega
      simp [hj, this]

/-- What the loaded code bytes leave at each address. -/
theorem Memory.read_writeBytes {m : Memory} (h : Memory.wf m) (a : Nat) (bs : List Byte) (j : Nat) :
    Memory.read (Memory.writeBytes m a bs) j =
      if a ≤ j ∧ j < a + bs.length then bs.getD (j - a) Memory.unlisted else Memory.read m j := by
  induction bs generalizing m a with
  | nil =>
    simp [Memory.writeBytes]
  | cons b rest ih =>
    rw [Memory.writeBytes, ih (Memory.write_wf h _ _), Memory.read_write h]
    simp only [List.length_cons]
    by_cases hj : j = a
    · subst hj
      have h1 : ¬ (j + 1 ≤ j ∧ j < j + 1 + rest.length) := by omega
      have h2 : j ≤ j ∧ j < j + (rest.length + 1) := by omega
      rw [if_neg h1, if_pos rfl, if_pos h2]
      simp
    · by_cases h1 : a + 1 ≤ j ∧ j < a + 1 + rest.length
      · have h2 : a ≤ j ∧ j < a + (rest.length + 1) := by omega
        have h3 : j - a = (j - (a + 1)) + 1 := by omega
        rw [if_pos h1, if_pos h2, h3]
        simp
      · have h2 : ¬ (a ≤ j ∧ j < a + (rest.length + 1)) := by omega
        rw [if_neg h1, if_neg h2, if_neg hj]

/-- The keys a store leaves. -/
theorem Memory.mem_writeLE {m : Memory} {a : Nat} {v : Word} {n : Nat} {c : Host.Cell}
    (h : c ∈ Memory.writeLE m a v n) : c ∈ m ∨ (a ≤ c.1 ∧ c.1 < a + n) := by
  induction n with
  | zero => exact .inl h
  | succ n ih =>
    rcases Memory.mem_write h with h | h
    · rcases ih h with h | h
      · exact .inl h
      · exact .inr (by omega)
    · exact .inr (by omega)

/-- The keys the loaded code bytes leave. -/
theorem Memory.mem_writeBytes {m : Memory} {a : Nat} {bs : List Byte} {c : Host.Cell}
    (h : c ∈ Memory.writeBytes m a bs) : c ∈ m ∨ (a ≤ c.1 ∧ c.1 < a + bs.length) := by
  induction bs generalizing m a with
  | nil => exact .inl h
  | cons b rest ih =>
    simp only [List.length_cons]
    rcases ih h with h | h
    · rcases Memory.mem_write h with h | h
      · exact .inl h
      · exact .inr (by omega)
    · exact .inr (by omega)

/-- `MEM_INIT` gives a canonical memory. -/
theorem initMemory_wf (c : Config) (l : List (Nat × Byte)) : Memory.wf (initMemory c l) := by
  induction l with
  | nil => exact Memory.wf_nil
  | cons d rest ih =>
    obtain ⟨a, b⟩ := d
    simp only [initMemory]
    split
    · exact Memory.write_wf ih _ _
    · exact ih

/-- `MEM_INIT` lists nothing outside the window. -/
theorem initMemory_inWindow (c : Config) (l : List (Nat × Byte)) : ∀ d ∈ initMemory c l, hasByte c d.1 = true := by
  induction l with
  | nil => simp [initMemory]
  | cons e rest ih =>
    obtain ⟨a, b⟩ := e
    simp only [initMemory]
    split
    · rename_i h
      intro d hd
      rcases Memory.mem_write hd with hd | hd
      · exact ih d hd
      · rw [hd]; exact h
    · exact ih

/-- Inside the window memory starts as `MEM_INIT` says (20_memory.md R61). -/
theorem read_initMemory (c : Config) (l : List (Nat × Byte)) (j : Nat) :
    Memory.read (initMemory c l) j = if hasByte c j then Memory.read l j else Memory.unlisted := by
  induction l with
  | nil => simp [initMemory]
  | cons e rest ih =>
    obtain ⟨a, b⟩ := e
    by_cases ha : a = j
    · subst ha
      by_cases hw : hasByte c a = true
      · simp [initMemory, hw, Memory.read, Memory.read_write (initMemory_wf c rest)]
      · simp [initMemory, hw, ih]
    · by_cases hw : hasByte c a = true
      · simp [initMemory, hw, Memory.read, Memory.read_write (initMemory_wf c rest), Ne.symm ha, ha, ih]
      · simp [initMemory, hw, Memory.read, ha, ih]

/-- The loaded memory is canonical. -/
theorem loadedMemory_wf (l : Load) : Memory.wf (loadedMemory l) :=
  Memory.writeBytes_wf (initMemory_wf _ _) _ _

end Sys2Proof.Machine
end

