-- ==== Sys2Proof/Laws/State.lean ====
section
/-!
SUPPORT. One lemma per field per update of State, and what the register file reads after a write.
-/

namespace Sys2Proof.Machine

/-! ## setPc -/

@[simp] theorem State.setPc_config (s : State) (v : Word) : (s.setPc v).config = s.config := rfl
@[simp] theorem State.setPc_regs (s : State) (v : Word) : (s.setPc v).regs = s.regs := rfl
@[simp] theorem State.setPc_pc (s : State) (v : Word) : (s.setPc v).pc = v := rfl
@[simp] theorem State.setPc_mem (s : State) (v : Word) : (s.setPc v).mem = s.mem := rfl
@[simp] theorem State.setPc_run (s : State) (v : Word) : (s.setPc v).run = s.run := rfl
@[simp] theorem State.setPc_cause (s : State) (v : Word) : (s.setPc v).cause = s.cause := rfl
@[simp] theorem State.setPc_info (s : State) (v : Word) : (s.setPc v).info = s.info := rfl
@[simp] theorem State.setPc_readReg (s : State) (v : Word) (i : Reg) : (s.setPc v).readReg i = s.readReg i := rfl

/-! ## writeReg -/

@[simp] theorem State.writeReg_config (s : State) (i : Reg) (v : Word) : (s.writeReg i v).config = s.config := by
  unfold State.writeReg; split <;> rfl
@[simp] theorem State.writeReg_pc (s : State) (i : Reg) (v : Word) : (s.writeReg i v).pc = s.pc := by
  unfold State.writeReg; split <;> rfl
@[simp] theorem State.writeReg_mem (s : State) (i : Reg) (v : Word) : (s.writeReg i v).mem = s.mem := by
  unfold State.writeReg; split <;> rfl
@[simp] theorem State.writeReg_run (s : State) (i : Reg) (v : Word) : (s.writeReg i v).run = s.run := by
  unfold State.writeReg; split <;> rfl
@[simp] theorem State.writeReg_cause (s : State) (i : Reg) (v : Word) : (s.writeReg i v).cause = s.cause := by
  unfold State.writeReg; split <;> rfl
@[simp] theorem State.writeReg_info (s : State) (i : Reg) (v : Word) : (s.writeReg i v).info = s.info := by
  unfold State.writeReg; split <;> rfl

/-- Register 0 reads 0 in every state (10_state.md R32). -/
@[simp] theorem State.readReg_zero (s : State) : s.readReg 0#5 = 0#32 := rfl

/-- Entry 0 of the register file is never written (10_state.md R33). -/
theorem State.writeReg_regZero (s : State) (i : Reg) (v : Word) : (s.writeReg i v).regs[0] = s.regs[0] := by
  unfold State.writeReg
  split
  · rfl
  · rename_i h
    have : i.toNat ≠ 0 := fun h0 => h (by apply BitVec.eq_of_toNat_eq; simpa using h0)
    simp [this]

/-- What a register reads after a write: 10_state.md R32, R33. -/
theorem State.readReg_writeReg (s : State) (i j : Reg) (v : Word) :
    (s.writeReg i v).readReg j = if j = i then (if i = 0#5 then 0#32 else v) else s.readReg j := by
  unfold State.writeReg State.readReg
  by_cases hi : i = 0#5
  · subst hi
    by_cases hj : j = 0#5 <;> simp [hj]
  · by_cases hj : j = 0#5
    · subst hj; simp [Ne.symm hi]
    · by_cases hij : j = i
      · subst hij; simp [hj]
      · have : i.toNat ≠ j.toNat := fun h => hij (BitVec.eq_of_toNat_eq h.symm)
        simp [hi, hj, hij, this]

/-! ## halt and raise -/

@[simp] theorem State.halt_config (s : State) (c : HaltCause) (v : Word) : (s.halt c v).config = s.config := rfl
@[simp] theorem State.halt_regs (s : State) (c : HaltCause) (v : Word) : (s.halt c v).regs = s.regs := rfl
@[simp] theorem State.halt_pc (s : State) (c : HaltCause) (v : Word) : (s.halt c v).pc = s.pc := rfl
@[simp] theorem State.halt_mem (s : State) (c : HaltCause) (v : Word) : (s.halt c v).mem = s.mem := rfl
@[simp] theorem State.halt_run (s : State) (c : HaltCause) (v : Word) : (s.halt c v).run = .halted := rfl
@[simp] theorem State.halt_cause (s : State) (c : HaltCause) (v : Word) : (s.halt c v).cause = c := rfl
@[simp] theorem State.halt_info (s : State) (c : HaltCause) (v : Word) : (s.halt c v).info = v := rfl
@[simp] theorem State.halt_readReg (s : State) (c : HaltCause) (v : Word) (i : Reg) :
    (s.halt c v).readReg i = s.readReg i := rfl

theorem State.raise_eq (s : State) (r : Raise) : s.raise r = s.halt r.cause r.info := rfl

/-- A halt is precise: 60_exceptions.md R224. -/
theorem State.halt_haltsOnly (s : State) (c : HaltCause) (v : Word) : HaltsOnly s (s.halt c v) c v :=
  ⟨rfl, rfl, rfl, rfl, fun _ => rfl, fun _ => rfl, rfl⟩

/-- Raising is precise: 60_exceptions.md R223, R224. -/
theorem State.raise_haltsOnly (s : State) (r : Raise) : HaltsOnly s (s.raise r) r.cause r.info :=
  State.halt_haltsOnly s _ _

/-! ## commit -/

@[simp] theorem State.commit_config (s : State) (e : Effect) : (s.commit e).config = s.config := by
  rcases e with ⟨_ | _, _ | _, _⟩ <;> simp [State.commit, State.commitReg, State.commitMem]
@[simp] theorem State.commit_pc (s : State) (e : Effect) : (s.commit e).pc = e.nextPc := rfl
@[simp] theorem State.commit_run (s : State) (e : Effect) : (s.commit e).run = s.run := by
  rcases e with ⟨_ | _, _ | _, _⟩ <;> simp [State.commit, State.commitReg, State.commitMem]
@[simp] theorem State.commit_cause (s : State) (e : Effect) : (s.commit e).cause = s.cause := by
  rcases e with ⟨_ | _, _ | _, _⟩ <;> simp [State.commit, State.commitReg, State.commitMem]
@[simp] theorem State.commit_info (s : State) (e : Effect) : (s.commit e).info = s.info := by
  rcases e with ⟨_ | _, _ | _, _⟩ <;> simp [State.commit, State.commitReg, State.commitMem]

/-- The memory after a commit is the old one or the bytes of the one store. -/
theorem State.commit_mem (s : State) (e : Effect) :
    (s.commit e).mem =
      match e.mw with
      | none => s.mem
      | some (addr, n, v) => Memory.writeLE s.mem addr.toNat v n := by
  rcases e with ⟨_ | _, _ | _, _⟩ <;> simp [State.commit, State.commitReg, State.commitMem]

/-- The registers after a commit: 10_state.md R34. -/
theorem State.commit_readReg (s : State) (e : Effect) (j : Reg) :
    (s.commit e).readReg j =
      match e.wr with
      | none => s.readReg j
      | some (rd, v) => if j = rd then (if rd = 0#5 then 0#32 else v) else s.readReg j := by
  rcases e with ⟨_ | ⟨rd, v⟩, mw, pc⟩
  · rcases mw with _ | ⟨_, _, _⟩ <;> rfl
  · have : (s.commit ⟨some (rd, v), mw, pc⟩).readReg j = (s.writeReg rd v).readReg j := by
      rcases mw with _ | ⟨_, _, _⟩ <;> rfl
    rw [this, State.readReg_writeReg]

/-- Entry 0 of the register file after a commit. -/
theorem State.commit_regZero (s : State) (e : Effect) : (s.commit e).regs[0] = s.regs[0] := by
  rcases e with ⟨_ | ⟨rd, v⟩, mw, pc⟩
  · rcases mw with _ | ⟨_, _, _⟩ <;> rfl
  · have : (s.commit ⟨some (rd, v), mw, pc⟩).regs = (s.writeReg rd v).regs := by
      rcases mw with _ | ⟨_, _, _⟩ <;> rfl
    simp only [this, State.writeReg_regZero]

end Sys2Proof.Machine
end

