-- ==== Sys2Proof/Laws/Ops.lean ====
section
/-!
SUPPORT. One lemma per shared operation that says everything it can do: range checks, the accessors, the target check, and the shared
shapes of execution.
-/

namespace Sys2Proof.Machine

/-! ## Range checks -/

theorem inRange_iff (c : Config) (addr : Word) (n : Nat) :
    inRange c addr n = true ↔ c.memOffset.toNat ≤ addr.toNat ∧ addr.toNat + n ≤ c.memOffset.toNat + c.memSize := by
  simp [inRange]

theorem inCode_iff (c : Config) (pc : Word) (n : Nat) :
    inCode c pc n = true ↔ c.codeBase.toNat ≤ pc.toNat ∧ pc.toNat + n ≤ c.codeBase.toNat + c.codeLen := by
  simp [inCode]

theorem hasByte_iff (c : Config) (a : Nat) :
    hasByte c a = true ↔ c.memOffset.toNat ≤ a ∧ a < c.memOffset.toNat + c.memSize := by
  simp [hasByte]

theorem sizeOk_iff (n : Nat) : sizeOk n = true ↔ n = 1 ∨ n = 2 ∨ n = 4 := by
  simp [sizeOk, or_assoc]

/-- An instruction fetched from the code lies in the memory (20_memory.md R70). -/
theorem inRange_of_inCode {c : Config} (h : c.wf) {pc : Word} {n : Nat} (hc : inCode c pc n = true) :
    inRange c pc n = true := by
  rw [inCode_iff] at hc
  rw [inRange_iff]
  obtain ⟨h1, h2, h3⟩ := h
  omega

/-! ## Accessors -/

/-- What `memRead` can do, for a legal size: 20_memory.md R66. -/
theorem memRead_eq {s : State} {addr : Word} {n : Nat} (h : sizeOk n = true) :
    memRead s addr n =
      if inRange s.config addr n then .ok (Memory.readLE s.mem addr.toNat n) else .error (.outOfRangeMemory addr) := by
  simp [memRead, h]

/-- What the check of a store can do, for a legal size: 20_memory.md R67. -/
theorem memWriteCheck_eq {s : State} {addr : Word} {n : Nat} (h : sizeOk n = true) :
    memWriteCheck s addr n = if inRange s.config addr n then .ok () else .error (.outOfRangeMemory addr) := by
  simp [memWriteCheck, h]

/-- What `memWrite` can do, for a legal size: 20_memory.md R67. -/
theorem memWrite_eq {s : State} {addr : Word} {n : Nat} {v : Word} (h : sizeOk n = true) :
    memWrite s addr n v =
      if inRange s.config addr n then .ok { s with mem := Memory.writeLE s.mem addr.toNat v n }
      else .error (.outOfRangeMemory addr) := by
  unfold memWrite
  rw [memWriteCheck_eq h]
  split <;> rename_i h1 <;> split at h1 <;> simp_all

/-- A little-endian read of `n` bytes, bit by bit: 20_memory.md R66. -/
theorem Memory.getLsbD_readLE (m : Memory) (a n i : Nat) :
    (Memory.readLE m a n).getLsbD i =
      (decide (i < 32) && decide (i < 8 * n) && (Memory.read m (a + i / 8)).getLsbD (i % 8)) := by
  induction n with
  | zero => simp [Memory.readLE]
  | succ n ih =>
    rw [Memory.readLE, BitVec.getLsbD_or, ih, BitVec.getLsbD_shiftLeft, BitVec.getLsbD_setWidth]
    by_cases h32 : i < 32
    · by_cases h1 : i < 8 * n
      · have h2 : i < 8 * (n + 1) := by omega
        simp [h32, h1, h2]
      · by_cases h2 : i < 8 * (n + 1)
        · have h3 : i - 8 * n < 32 := by omega
          have h4 : i / 8 = n := by omega
          have h5 : i - 8 * n = i % 8 := by omega
          have h6 : i % 8 < 32 := by omega
          simp [h32, h1, h2, h4, h5, h6]
        · have h4 : (Memory.read m (a + n)).getLsbD (i - 8 * n) = false :=
            BitVec.getLsbD_of_ge _ _ (by omega)
          simp [h1, h2, h4]
    · simp [h32]

/-! ## The target check -/

/-- What `CheckTarget` can do: 41_control_transfer.md R171. -/
theorem checkTarget_eq (c : Config) (target : Word) :
    checkTarget c target =
      if c.checkMisalignedJump = true ∧ target.getLsbD 0 = true then .error (.misalignedJump target) else .ok () := by
  simp [checkTarget, Bool.and_eq_true]

/-! ## Shared shapes of execution -/

/-- A computational instruction completes, writes only `rd` and goes on to `pc + 4`. -/
theorem State.compute_spec (s : State) (rd : Reg) (v : Word) :
    ∃ t, s.compute rd v = .next t ∧ WritesOnly s t rd v (s.pc + 4#32) := by
  refine ⟨_, rfl, ?_, rfl, ?_, ?_, ?_⟩
  · rw [State.commit_readReg]; simp [State.regEffect]
  · intro r hr; rw [State.commit_readReg]; simp [State.regEffect, hr]
  · intro a; rw [State.commit_mem]; simp [State.regEffect]
  · simp [SameStatus]

/-- A jump that is not turned away completes, links and goes to its target. -/
theorem jumpEffect_spec (s : State) (rd : Reg) (target : Word) :
    ∃ t, conclude s (.ok (jumpEffect s rd target)) = .next t ∧ WritesOnly s t rd (s.pc + 4#32) target := by
  refine ⟨_, rfl, ?_, rfl, ?_, ?_, ?_⟩
  · rw [State.commit_readReg]; simp [jumpEffect, State.pcPlus4]
  · intro r hr; rw [State.commit_readReg]; simp [jumpEffect, hr]
  · intro a; rw [State.commit_mem]; simp [jumpEffect]
  · simp [SameStatus]

/-- What a branch can do: 41_control_transfer.md R180, R171. -/
theorem branch_spec (s : State) (taken : Bool) (imm : Word) :
    ∃ t, conclude s (branch s taken imm) = .next t ∧
      (taken = false → JumpsOnly s t (s.pc + 4#32)) ∧
      (taken = true → ¬ (s.config.checkMisalignedJump = true ∧ (s.pc + imm).getLsbD 0 = true) → JumpsOnly s t (s.pc + imm)) ∧
      (taken = true → s.config.checkMisalignedJump = true ∧ (s.pc + imm).getLsbD 0 = true →
        HaltsOnly s t .misalignedJump (s.pc + imm)) := by
  cases taken
  · exact ⟨_, rfl, fun _ => ⟨rfl, fun _ => rfl, fun _ => rfl, rfl, rfl, rfl, rfl⟩, by simp, by simp⟩
  · by_cases h : s.config.checkMisalignedJump = true ∧ (s.pc + imm).getLsbD 0 = true
    · have hb : branch s true imm = .error (.misalignedJump (s.pc + imm)) := by
        have hc : checkTarget s.config (s.pc + imm) = .error (.misalignedJump (s.pc + imm)) := by
          rw [checkTarget_eq, if_pos h]
        simp [branch, State.relTarget, hc]
      exact ⟨_, by rw [hb]; rfl, by simp, fun _ h' => absurd h h', fun _ _ => State.raise_haltsOnly s _⟩
    · have hb : branch s true imm = .ok { wr := none, mw := none, nextPc := s.pc + imm } := by
        have hc : checkTarget s.config (s.pc + imm) = .ok () := by
          rw [checkTarget_eq, if_neg h]
        simp [branch, State.relTarget, hc]
      exact ⟨s.commit { wr := none, mw := none, nextPc := s.pc + imm }, by rw [hb]; rfl, by simp, fun _ _ => ⟨rfl, fun _ => rfl, fun _ => rfl, rfl, rfl, rfl, rfl⟩, fun _ h' => absurd h' h⟩

/-- What a load can do: 42_load_store.md R190. -/
theorem load_spec (s : State) {n : Nat} (hn : sizeOk n = true) (extend : Word → Word) (rd rs1 : Reg) (imm : Word) :
    ∃ t, conclude s (load s n extend rd rs1 imm) = .next t ∧
      (inRange s.config (s.effectiveAddr rs1 imm) n = true →
        WritesOnly s t rd (extend (Memory.readLE s.mem (s.effectiveAddr rs1 imm).toNat n)) (s.pc + 4#32)) ∧
      (inRange s.config (s.effectiveAddr rs1 imm) n = false →
        HaltsOnly s t .outOfRangeMemory (s.effectiveAddr rs1 imm)) := by
  cases h : inRange s.config (s.effectiveAddr rs1 imm) n
  · have hl : load s n extend rd rs1 imm = .error (.outOfRangeMemory (s.effectiveAddr rs1 imm)) := by
      unfold load; rw [memRead_eq hn, h]; rfl
    exact ⟨_, by rw [hl]; rfl, by simp, fun _ => State.raise_haltsOnly s _⟩
  · have hl : load s n extend rd rs1 imm = .ok (s.regEffect rd (extend (Memory.readLE s.mem (s.effectiveAddr rs1 imm).toNat n))) := by
      unfold load; rw [memRead_eq hn, h]; rfl
    obtain ⟨t, ht, hw⟩ := State.compute_spec s rd (extend (Memory.readLE s.mem (s.effectiveAddr rs1 imm).toNat n))
    exact ⟨t, by rw [hl]; exact ht, fun _ => hw, by simp⟩

/-- What a store can do: 42_load_store.md R196. -/
theorem store_spec (s : State) {n : Nat} (hn : sizeOk n = true) (rs2 rs1 : Reg) (imm : Word) :
    ∃ t, conclude s (store s n rs2 rs1 imm) = .next t ∧
      (inRange s.config (s.effectiveAddr rs1 imm) n = true →
        t.pc = s.pc + 4#32 ∧ SameRegs s t ∧ SameStatus s t ∧
        t.mem = Memory.writeLE s.mem (s.effectiveAddr rs1 imm).toNat (s.readReg rs2) n) ∧
      (inRange s.config (s.effectiveAddr rs1 imm) n = false →
        HaltsOnly s t .outOfRangeMemory (s.effectiveAddr rs1 imm)) := by
  cases h : inRange s.config (s.effectiveAddr rs1 imm) n
  · have hl : store s n rs2 rs1 imm = .error (.outOfRangeMemory (s.effectiveAddr rs1 imm)) := by
      unfold store; rw [memWriteCheck_eq hn, h]; rfl
    exact ⟨_, by rw [hl]; rfl, by simp, fun _ => State.raise_haltsOnly s _⟩
  · have hl : store s n rs2 rs1 imm =
        .ok { wr := none, mw := some (s.effectiveAddr rs1 imm, n, s.readReg rs2), nextPc := s.pcPlus4 } := by
      unfold store; rw [memWriteCheck_eq hn, h]; rfl
    exact ⟨s.commit { wr := none, mw := some (s.effectiveAddr rs1 imm, n, s.readReg rs2), nextPc := s.pcPlus4 },
      by rw [hl]; rfl, fun _ => ⟨rfl, fun _ => rfl, ⟨rfl, rfl, rfl, rfl⟩, rfl⟩, by simp⟩

end Sys2Proof.Machine
end

