-- ==== Sys2Proof/Laws/Access.lean ====
section
/-!
SUPPORT. The accessors in the terms of Safety.lean: range checks byte by byte, little-endian reads as concatenations and as sums, the
fetched word, reading back a write, and target parity.
-/

namespace Sys2Proof.Machine

/-- The range check holds exactly when every byte is in the window (20_memory.md R62). -/
theorem inRange_iff_bytes (c : Config) (addr : Word) {n : Nat} (h : 0 < n) :
    inRange c addr n = true ↔ BytesInMemory c addr n := by
  rw [inRange_iff, BytesInMemory]
  refine ⟨fun h k hk => by omega, fun h' => ?_⟩
  have h1 := h' 0 h
  have h2 := h' (n - 1) (by omega)
  omega

/-- The first check of a step, byte by byte (20_memory.md R69). -/
theorem fetchable_iff (s : State) : fetchable s = true ↔ WordInCode s.config s.pc := by
  rw [fetchable, inCode_iff, WordInCode]
  refine ⟨fun h k hk => by omega, fun h => ?_⟩
  have h0 := h 0 (by decide)
  have h3 := h 3 (by decide)
  omega

theorem Memory.readLE_one (m : Memory) (a : Nat) : Memory.readLE m a 1 = (Memory.read m a).setWidth 32 := by
  simp [Memory.readLE]

theorem Memory.readLE_two (m : Memory) (a : Nat) :
    Memory.readLE m a 2 = (Memory.read m (a + 1) ++ Memory.read m a : BitVec 16).setWidth 32 := by
  apply BitVec.eq_of_getLsbD_eq
  intro i hi
  rw [Memory.getLsbD_readLE, BitVec.getLsbD_setWidth, BitVec.getLsbD_append]
  by_cases h : i < 8
  · simp [hi, h, show i < 8 * 2 by omega, show i / 8 = 0 by omega, show i % 8 = i by omega]
  · by_cases h2 : i < 16
    · simp [hi, h, h2, show i / 8 = 1 by omega, show i % 8 = i - 8 by omega]
    · have h4 : (Memory.read m (a + 1)).getLsbD (i - 8) = false := BitVec.getLsbD_of_ge _ _ (by omega)
      simp [h, h2, h4]

theorem Memory.readLE_four (m : Memory) (a : Nat) :
    Memory.readLE m a 4 =
      (Memory.read m (a + 3) ++ Memory.read m (a + 2) ++ Memory.read m (a + 1) ++ Memory.read m a : BitVec 32) := by
  apply BitVec.eq_of_getLsbD_eq
  intro i hi
  rw [Memory.getLsbD_readLE]
  simp only [BitVec.getLsbD_append]
  interval_cases i <;> simp

/-- Two bytes as a number, the low one first. -/
theorem toNat_two_bytes (b0 b1 : Byte) : (b1 ++ b0 : BitVec 16).toNat = b0.toNat + 2 ^ 8 * b1.toNat := by
  rw [BitVec.toNat_append, Nat.shiftLeft_eq, mul_comm, ← Nat.two_pow_add_eq_or_of_lt b0.isLt]
  omega

/-- Four bytes as a number, the low one first. -/
theorem toNat_four_bytes (b0 b1 b2 b3 : Byte) :
    (b3 ++ b2 ++ b1 ++ b0 : BitVec 32).toNat =
      b0.toNat + 2 ^ 8 * b1.toNat + 2 ^ 16 * b2.toNat + 2 ^ 24 * b3.toNat := by
  simp only [BitVec.toNat_append, Nat.shiftLeft_eq]
  rw [mul_comm _ (2 ^ 8), mul_comm _ (2 ^ 8), mul_comm _ (2 ^ 8), ← Nat.two_pow_add_eq_or_of_lt b2.isLt,
    ← Nat.two_pow_add_eq_or_of_lt b1.isLt, ← Nat.two_pow_add_eq_or_of_lt b0.isLt]
  omega

theorem wordOfBytes_eq_append (b0 b1 b2 b3 : Byte) : wordOfBytes b0 b1 b2 b3 = (b3 ++ b2 ++ b1 ++ b0 : BitVec 32) := by
  apply BitVec.eq_of_getLsbD_eq
  intro i hi
  unfold wordOfBytes
  simp only [BitVec.getLsbD_append, BitVec.getLsbD_or, BitVec.getLsbD_shiftLeft, BitVec.getLsbD_setWidth]
  interval_cases i <;> simp

/-- The fetched word is a four-byte read at the PC (20_memory.md R70). -/
theorem fetchWord_eq_readLE (s : State) : fetchWord s = Memory.readLE s.mem s.pc.toNat 4 := by
  rw [fetchWord, wordOfBytes_eq_append, Memory.readLE_four]

/-- Reading back the bytes just written (20_memory.md R68). -/
theorem Memory.readLE_writeLE {m : Memory} (hm : Memory.wf m) (a n : Nat) (v : Word) :
    Memory.readLE (Memory.writeLE m a v n) a n = v &&& mask (n * 8) := by
  apply BitVec.eq_of_getLsbD_eq
  intro i hi
  rw [Memory.getLsbD_readLE, BitVec.getLsbD_and, getLsbD_mask, Memory.read_writeLE hm]
  by_cases h : i < 8 * n
  · rw [if_pos (by omega), BitVec.getLsbD_extractLsb', show a + i / 8 - a = i / 8 by omega,
      show 8 * (i / 8) + i % 8 = i by omega]
    simp [h, hi, show i < n * 8 by omega, show i % 8 < 8 by omega]
  · simp [h, show ¬ i < n * 8 by omega]

/-- A byte of a word as a number. -/
theorem toNat_byte (v : Word) (k : Nat) : (v.extractLsb' (8 * k) 8).toNat = v.toNat / 2 ^ (8 * k) % 2 ^ 8 := by
  rw [BitVec.extractLsb'_toNat, Nat.shiftRight_eq_div_pow]

/-- `sext` of a zero-extended value (42_load_store.md R191, R192). -/
theorem sext_setWidth {n : Nat} (v : BitVec n) (h0 : 0 < n) (h : n ≤ 32) : sext (v.setWidth 32) (n - 1) = v.signExtend 32 := by
  simpa [sextN] using sextN_eq_signExtend v h0 h

/-- Bit 0 is parity. -/
theorem getLsbD_zero_iff_odd (v : Word) : v.getLsbD 0 = true ↔ v.toNat % 2 = 1 := by
  simp [BitVec.getLsbD, Nat.testBit_zero]

/-- The target check in the words of Safety.lean (41_control_transfer.md R171). -/
theorem targetRefused_iff (c : Config) (v : Word) :
    TargetRefused c v ↔ c.checkMisalignedJump = true ∧ v.getLsbD 0 = true := by
  rw [getLsbD_zero_iff_odd, TargetRefused]

/-- The JALR mask rounds down to even (41_control_transfer.md R173). -/
theorem toNat_clear_bit0 (v : Word) : (v &&& 0xFFFFFFFE#32).toNat = v.toNat / 2 * 2 := by
  have h : v &&& 0xFFFFFFFE#32 = (v >>> 1) <<< 1 := by
    apply BitVec.eq_of_getLsbD_eq
    intro i hi
    rw [BitVec.getLsbD_and, BitVec.getLsbD_shiftLeft, BitVec.getLsbD_ushiftRight]
    interval_cases i <;> simp
  rw [h, BitVec.toNat_shiftLeft, BitVec.toNat_ushiftRight, Nat.shiftLeft_eq, Nat.shiftRight_eq_div_pow]
  have := v.isLt
  omega

theorem toNat_boolWord (b : Bool) : (boolWord b).toNat = if b = true then 1 else 0 := by
  cases b <;> rfl

end Sys2Proof.Machine
end

