-- ==== Sys2Proof/Laws/Decode.lean ====
section
/-!
SUPPORT. What each field of an encoded word reads back as (30_encoding.md R90 to R97, R107), what an immediate in its range is, and
what the format table answers.
-/

namespace Sys2Proof

open Machine

section fields

variable (f7 : BitVec 7) (rs2 rs1 : Reg) (f3 : BitVec 3) (rd : Reg) (op : BitVec 7) (imm : Word) (u20 : BitVec 20)

/-! ## Fields of encoded words -/

@[simp] theorem fieldOpcode_encR : fieldOpcode (encR f7 rs2 rs1 f3 rd op) = op := by
  unfold fieldOpcode encR
  apply BitVec.eq_of_getLsbD_eq
  intro i hi
  simp only [BitVec.getLsbD_extractLsb', BitVec.getLsbD_append]
  interval_cases i <;> simp

@[simp] theorem fieldRd_encR : fieldRd (encR f7 rs2 rs1 f3 rd op) = rd := by
  unfold fieldRd encR
  apply BitVec.eq_of_getLsbD_eq
  intro i hi
  simp only [BitVec.getLsbD_extractLsb', BitVec.getLsbD_append]
  interval_cases i <;> simp

@[simp] theorem fieldFunct3_encR : fieldFunct3 (encR f7 rs2 rs1 f3 rd op) = f3 := by
  unfold fieldFunct3 encR
  apply BitVec.eq_of_getLsbD_eq
  intro i hi
  simp only [BitVec.getLsbD_extractLsb', BitVec.getLsbD_append]
  interval_cases i <;> simp

@[simp] theorem fieldRs1_encR : fieldRs1 (encR f7 rs2 rs1 f3 rd op) = rs1 := by
  unfold fieldRs1 encR
  apply BitVec.eq_of_getLsbD_eq
  intro i hi
  simp only [BitVec.getLsbD_extractLsb', BitVec.getLsbD_append]
  interval_cases i <;> simp

@[simp] theorem fieldRs2_encR : fieldRs2 (encR f7 rs2 rs1 f3 rd op) = rs2 := by
  unfold fieldRs2 encR
  apply BitVec.eq_of_getLsbD_eq
  intro i hi
  simp only [BitVec.getLsbD_extractLsb', BitVec.getLsbD_append]
  interval_cases i <;> simp

@[simp] theorem fieldFunct7_encR : fieldFunct7 (encR f7 rs2 rs1 f3 rd op) = f7 := by
  unfold fieldFunct7 encR
  apply BitVec.eq_of_getLsbD_eq
  intro i hi
  simp only [BitVec.getLsbD_extractLsb', BitVec.getLsbD_append]
  interval_cases i <;> simp

@[simp] theorem fieldOpcode_encI : fieldOpcode (encI imm rs1 f3 rd op) = op := by
  unfold fieldOpcode encI
  apply BitVec.eq_of_getLsbD_eq
  intro i hi
  simp only [BitVec.getLsbD_extractLsb', BitVec.getLsbD_append]
  interval_cases i <;> simp

@[simp] theorem fieldRd_encI : fieldRd (encI imm rs1 f3 rd op) = rd := by
  unfold fieldRd encI
  apply BitVec.eq_of_getLsbD_eq
  intro i hi
  simp only [BitVec.getLsbD_extractLsb', BitVec.getLsbD_append]
  interval_cases i <;> simp

@[simp] theorem fieldFunct3_encI : fieldFunct3 (encI imm rs1 f3 rd op) = f3 := by
  unfold fieldFunct3 encI
  apply BitVec.eq_of_getLsbD_eq
  intro i hi
  simp only [BitVec.getLsbD_extractLsb', BitVec.getLsbD_append]
  interval_cases i <;> simp

@[simp] theorem fieldRs1_encI : fieldRs1 (encI imm rs1 f3 rd op) = rs1 := by
  unfold fieldRs1 encI
  apply BitVec.eq_of_getLsbD_eq
  intro i hi
  simp only [BitVec.getLsbD_extractLsb', BitVec.getLsbD_append]
  interval_cases i <;> simp

@[simp] theorem fieldOpcode_encS : fieldOpcode (encS imm rs2 rs1 f3 op) = op := by
  unfold fieldOpcode encS
  apply BitVec.eq_of_getLsbD_eq
  intro i hi
  simp only [BitVec.getLsbD_extractLsb', BitVec.getLsbD_append]
  interval_cases i <;> simp

@[simp] theorem fieldFunct3_encS : fieldFunct3 (encS imm rs2 rs1 f3 op) = f3 := by
  unfold fieldFunct3 encS
  apply BitVec.eq_of_getLsbD_eq
  intro i hi
  simp only [BitVec.getLsbD_extractLsb', BitVec.getLsbD_append]
  interval_cases i <;> simp

@[simp] theorem fieldRs1_encS : fieldRs1 (encS imm rs2 rs1 f3 op) = rs1 := by
  unfold fieldRs1 encS
  apply BitVec.eq_of_getLsbD_eq
  intro i hi
  simp only [BitVec.getLsbD_extractLsb', BitVec.getLsbD_append]
  interval_cases i <;> simp

@[simp] theorem fieldRs2_encS : fieldRs2 (encS imm rs2 rs1 f3 op) = rs2 := by
  unfold fieldRs2 encS
  apply BitVec.eq_of_getLsbD_eq
  intro i hi
  simp only [BitVec.getLsbD_extractLsb', BitVec.getLsbD_append]
  interval_cases i <;> simp

@[simp] theorem fieldOpcode_encB : fieldOpcode (encB imm rs2 rs1 f3 op) = op := by
  unfold fieldOpcode encB
  apply BitVec.eq_of_getLsbD_eq
  intro i hi
  simp only [BitVec.getLsbD_extractLsb', BitVec.getLsbD_append]
  interval_cases i <;> simp

@[simp] theorem fieldFunct3_encB : fieldFunct3 (encB imm rs2 rs1 f3 op) = f3 := by
  unfold fieldFunct3 encB
  apply BitVec.eq_of_getLsbD_eq
  intro i hi
  simp only [BitVec.getLsbD_extractLsb', BitVec.getLsbD_append]
  interval_cases i <;> simp

@[simp] theorem fieldRs1_encB : fieldRs1 (encB imm rs2 rs1 f3 op) = rs1 := by
  unfold fieldRs1 encB
  apply BitVec.eq_of_getLsbD_eq
  intro i hi
  simp only [BitVec.getLsbD_extractLsb', BitVec.getLsbD_append]
  interval_cases i <;> simp

@[simp] theorem fieldRs2_encB : fieldRs2 (encB imm rs2 rs1 f3 op) = rs2 := by
  unfold fieldRs2 encB
  apply BitVec.eq_of_getLsbD_eq
  intro i hi
  simp only [BitVec.getLsbD_extractLsb', BitVec.getLsbD_append]
  interval_cases i <;> simp

@[simp] theorem fieldOpcode_encU : fieldOpcode (encU u20 rd op) = op := by
  unfold fieldOpcode encU
  apply BitVec.eq_of_getLsbD_eq
  intro i hi
  simp only [BitVec.getLsbD_extractLsb', BitVec.getLsbD_append]
  interval_cases i <;> simp

@[simp] theorem fieldRd_encU : fieldRd (encU u20 rd op) = rd := by
  unfold fieldRd encU
  apply BitVec.eq_of_getLsbD_eq
  intro i hi
  simp only [BitVec.getLsbD_extractLsb', BitVec.getLsbD_append]
  interval_cases i <;> simp

@[simp] theorem fieldOpcode_encJ : fieldOpcode (encJ imm rd op) = op := by
  unfold fieldOpcode encJ
  apply BitVec.eq_of_getLsbD_eq
  intro i hi
  simp only [BitVec.getLsbD_extractLsb', BitVec.getLsbD_append]
  interval_cases i <;> simp

@[simp] theorem fieldRd_encJ : fieldRd (encJ imm rd op) = rd := by
  unfold fieldRd encJ
  apply BitVec.eq_of_getLsbD_eq
  intro i hi
  simp only [BitVec.getLsbD_extractLsb', BitVec.getLsbD_append]
  interval_cases i <;> simp

/-! ## Immediates of encoded words -/

theorem immI_encI : immI (encI imm rs1 f3 rd op) = (imm.extractLsb' 0 12).signExtend 32 := by
  unfold immI encI
  rw [sextN_eq_signExtend _ (by decide) (by decide)]
  congr 1
  apply BitVec.eq_of_getLsbD_eq
  intro i hi
  simp only [BitVec.getLsbD_extractLsb', BitVec.getLsbD_append]
  interval_cases i <;> simp

theorem immS_encS : immS (encS imm rs2 rs1 f3 op) = (imm.extractLsb' 0 12).signExtend 32 := by
  unfold immS encS
  rw [sextN_eq_signExtend _ (by decide) (by decide)]
  congr 1
  apply BitVec.eq_of_getLsbD_eq
  intro i hi
  simp only [BitVec.getLsbD_extractLsb', BitVec.getLsbD_append]
  interval_cases i <;> simp

theorem immB_encB (h0 : imm.getLsbD 0 = false) : immB (encB imm rs2 rs1 f3 op) = (imm.extractLsb' 0 13).signExtend 32 := by
  unfold immB encB
  rw [sextN_eq_signExtend _ (by decide) (by decide)]
  congr 1
  apply BitVec.eq_of_getLsbD_eq
  intro i hi
  simp only [BitVec.getLsbD_extractLsb', BitVec.getLsbD_append]
  rw [BitVec.getLsbD_eq_getElem (by decide)] at h0
  interval_cases i <;> simp [h0]

theorem immU_encU : immU (encU u20 rd op) = (u20 ++ 0#12 : BitVec 32) := by
  unfold immU encU
  congr 1
  apply BitVec.eq_of_getLsbD_eq
  intro i hi
  simp only [BitVec.getLsbD_extractLsb', BitVec.getLsbD_append]
  interval_cases i <;> simp

theorem immJ_encJ (h0 : imm.getLsbD 0 = false) : immJ (encJ imm rd op) = (imm.extractLsb' 0 21).signExtend 32 := by
  unfold immJ encJ
  rw [sextN_eq_signExtend _ (by decide) (by decide)]
  congr 1
  apply BitVec.eq_of_getLsbD_eq
  intro i hi
  simp only [BitVec.getLsbD_extractLsb', BitVec.getLsbD_append]
  rw [BitVec.getLsbD_eq_getElem (by decide)] at h0
  interval_cases i <;> simp [h0]

end fields

/-! ## Immediates in their range -/

/-- A word whose signed value fits in `n` bits is the sign extension of its low `n` bits. -/
theorem signExtend_low_of_range {imm : Word} {n : Nat} (h0 : 0 < n) (h32 : n ≤ 32)
    (hlo : -(2 ^ (n - 1) : Int) ≤ imm.toInt) (hhi : imm.toInt < 2 ^ (n - 1)) :
    (imm.extractLsb' 0 n).signExtend 32 = imm := by
  have hset : imm.extractLsb' 0 n = imm.setWidth n := by
    apply BitVec.eq_of_getLsbD_eq
    intro i hi
    simp [hi]
  rw [hset]
  apply BitVec.eq_of_toInt_eq
  rw [BitVec.toInt_signExtend_of_le h32, BitVec.toInt_setWidth]
  have hb : ((imm.toNat : Int)).bmod (2 ^ n) = imm.toInt.bmod (2 ^ n) := by
    rw [BitVec.toInt_eq_toNat_bmod, Int.bmod_bmod_of_dvd]
    exact pow_dvd_pow 2 h32
  rw [hb]
  obtain ⟨m, rfl⟩ : ∃ m, n = m + 1 := ⟨n - 1, by omega⟩
  simp only [Nat.add_sub_cancel] at hlo hhi
  apply Int.bmod_eq_of_le_mul_two <;> (push_cast; rw [pow_succ]; omega)

theorem signExtend_of_imm12 {imm : Word} (h : imm12InRange imm) : (imm.extractLsb' 0 12).signExtend 32 = imm :=
  signExtend_low_of_range (by decide) (by decide) (by simpa using h.1) (by have := h.2; norm_num; omega)

theorem signExtend_of_imm13 {imm : Word} (h : imm13InRange imm) : (imm.extractLsb' 0 13).signExtend 32 = imm :=
  signExtend_low_of_range (by decide) (by decide) (by simpa using h.1) (by have := h.2.1; norm_num; omega)

theorem signExtend_of_imm21 {imm : Word} (h : imm21InRange imm) : (imm.extractLsb' 0 21).signExtend 32 = imm :=
  signExtend_low_of_range (by decide) (by decide) (by simpa using h.1) (by have := h.2.1; norm_num; omega)

/-- An even word has bit 0 clear. -/
theorem bit0_of_even {imm : Word} (h : imm.toInt % 2 = 0) : imm.getLsbD 0 = false := by
  have h1 : imm.toNat % 2 = 0 := by
    rw [BitVec.toInt_eq_toNat_cond] at h
    split at h <;> omega
  simp [BitVec.getLsbD, Nat.testBit_zero, h1]

theorem upper_of_immUpper {imm : Word} (h : immUpperInRange imm) : (imm.extractLsb' 12 20 ++ 0#12 : BitVec 32) = imm := by
  apply BitVec.eq_of_toNat_eq
  have := imm.isLt
  simp only [BitVec.toNat_append, BitVec.extractLsb'_toNat, BitVec.toNat_ofNat, Nat.shiftRight_eq_div_pow, Nat.shiftLeft_eq]
  simp
  omega

/-! ## The format table -/

/-- The eleven opcodes of 30_encoding.md R100. -/
theorem formatOf_isNone_iff (op : BitVec 7) :
    formatOf op = none ↔ op ∉ [0x03#7, 0x0F#7, 0x13#7, 0x17#7, 0x23#7, 0x33#7, 0x37#7, 0x63#7, 0x67#7, 0x6F#7, 0x73#7] := by
  revert op; decide

/-! ## Decoding by opcode -/

@[simp] theorem formatOf_load : formatOf 3#7 = some .i := rfl
@[simp] theorem formatOf_miscMem : formatOf 15#7 = some .reserved := rfl
@[simp] theorem formatOf_opImm : formatOf 19#7 = some .i := rfl
@[simp] theorem formatOf_auipc : formatOf 23#7 = some .u := rfl
@[simp] theorem formatOf_store : formatOf 35#7 = some .s := rfl
@[simp] theorem formatOf_op : formatOf 51#7 = some .r := rfl
@[simp] theorem formatOf_lui : formatOf 55#7 = some .u := rfl
@[simp] theorem formatOf_branch : formatOf 99#7 = some .b := rfl
@[simp] theorem formatOf_jalr : formatOf 103#7 = some .i := rfl
@[simp] theorem formatOf_jal : formatOf 111#7 = some .j := rfl
@[simp] theorem formatOf_system : formatOf 115#7 = some .i := rfl

section byOpcode

variable {w : Word}

theorem decode_load (h : fieldOpcode w = 0x03#7) :
    decode w = selectLoad w (fieldFunct3 w) (fieldRd w) (fieldRs1 w) (immI w) := by
  simp [decode, decodeRecord, select, selectI, h]

theorem decode_miscMem (h : fieldOpcode w = 0x0F#7) : decode w = .ok (.miscMem w) := by
  simp [decode, h]

theorem decode_opImm (h : fieldOpcode w = 0x13#7) :
    decode w = selectOpImm w (fieldFunct3 w) (fieldRd w) (fieldRs1 w) (immI w) := by
  simp [decode, decodeRecord, select, selectI, h]

theorem decode_auipc (h : fieldOpcode w = 0x17#7) : decode w = .ok (.auipc (fieldRd w) (immU w)) := by
  simp [decode, decodeRecord, select, h]

theorem decode_store (h : fieldOpcode w = 0x23#7) :
    decode w = selectStore w (fieldFunct3 w) (fieldRs2 w) (fieldRs1 w) (immS w) := by
  simp [decode, decodeRecord, select, h]

theorem decode_op (h : fieldOpcode w = 0x33#7) :
    decode w = selectOp w (fieldFunct7 w) (fieldFunct3 w) (fieldRd w) (fieldRs1 w) (fieldRs2 w) := by
  simp [decode, decodeRecord, select, h]

theorem decode_lui (h : fieldOpcode w = 0x37#7) : decode w = .ok (.lui (fieldRd w) (immU w)) := by
  simp [decode, decodeRecord, select, h]

theorem decode_branch (h : fieldOpcode w = 0x63#7) :
    decode w = selectBranch w (fieldFunct3 w) (fieldRs1 w) (fieldRs2 w) (immB w) := by
  simp [decode, decodeRecord, select, h]

theorem decode_jalr (h : fieldOpcode w = 0x67#7) :
    decode w = if fieldFunct3 w = 0#3 then .ok (.jalr (fieldRd w) (fieldRs1 w) (immI w)) else .error (.invalidEncoding w) := by
  simp [decode, decodeRecord, select, selectI, h]

theorem decode_jal (h : fieldOpcode w = 0x6F#7) : decode w = .ok (.jal (fieldRd w) (immJ w)) := by
  simp [decode, decodeRecord, select, h]

theorem decode_system (h : fieldOpcode w = 0x73#7) :
    decode w = .ok (.system (immI w) (fieldRs1 w) (fieldFunct3 w) (fieldRd w)) := by
  simp [decode, decodeRecord, select, selectI, h]

/-- A word whose opcode the table lacks: 30_encoding.md R101. -/
theorem decode_unknown (h : formatOf (fieldOpcode w) = none) : decode w = .error (.unknownOpcode w) := by
  have h' : fieldOpcode w ≠ 0x0F#7 := by
    intro ho; rw [ho] at h; exact absurd h (by decide)
  simp [decode, decodeRecord, h, h']

/-- The low bits of a sign-extended field are the field. -/
theorem extractLsb'_sextN {n : Nat} (v : BitVec n) (h0 : 0 < n) (h32 : n ≤ 32) (lo len : Nat) (h : lo + len ≤ n) :
    (sextN v).extractLsb' lo len = v.extractLsb' lo len := by
  rw [sextN_eq_signExtend v h0 h32]
  apply BitVec.eq_of_getLsbD_eq
  intro i hi
  have h1 : lo + i < n := by omega
  have h2 : lo + i < 32 := by omega
  simp [BitVec.getElem_signExtend, hi, h1, h2]

/-- `imm[11:5]` of the I immediate is `word[31:25]`: 30_encoding.md R104. -/
theorem immI_key (w : Word) : (immI w).extractLsb' 5 7 = fieldFunct7 w := by
  unfold immI fieldFunct7
  rw [extractLsb'_sextN _ (by decide) (by decide) _ _ (by decide)]
  apply BitVec.eq_of_getLsbD_eq
  intro i hi
  interval_cases i <;> simp

/-- `imm[4:0]` of the I immediate is `word[24:20]`: 30_encoding.md R104. -/
theorem immI_shamt (w : Word) : (immI w).extractLsb' 0 5 = fieldRs2 w := by
  unfold immI fieldRs2
  rw [extractLsb'_sextN _ (by decide) (by decide) _ _ (by decide)]
  apply BitVec.eq_of_getLsbD_eq
  intro i hi
  interval_cases i <;> simp

end byOpcode

end Sys2Proof
end

