-- ==== Sys2Proof/Laws/Step.lean ====
section
/-!
SUPPORT. What one instruction and one step can do, said once: commit an effect whose store is in range, or halt with a cause the block
can produce. Later proofs take these apart instead of unfolding `exec` and `step`.
-/

namespace Sys2Proof.Machine

/-- The store of an effect, if it has one, has a legal size and lies in the memory. -/
def EffectOk (s : State) (e : Effect) : Prop :=
  ∀ addr n v, e.mw = some (addr, n, v) → sizeOk n = true ∧ inRange s.config addr n = true

/-- The errors the block can produce (60_exceptions.md R221). -/
def RaiseOk (s : State) : Raise → Prop
  | .unknownOpcode _ => True
  | .invalidEncoding _ => True
  | .outOfRangeMemory _ => True
  | .invalidSize => False
  | .duplicateRegistration => False
  | .misalignedJump target => s.config.checkMisalignedJump = true ∧ target.getLsbD 0 = true

/-- A conclusion is a commit or a halt. -/
def Concludes (s : State) (r : Except Raise Effect) : Prop :=
  (∃ e, r = .ok e ∧ EffectOk s e) ∨ (∃ e, r = .error e ∧ RaiseOk s e)

/-- How an outcome that comes from `conclude` looks. -/
theorem conclude_cases {s : State} {r : Except Raise Effect} (h : Concludes s r) :
    (∃ e, conclude s r = .next (s.commit e) ∧ EffectOk s e) ∨ (∃ e, conclude s r = .next (s.raise e) ∧ RaiseOk s e) := by
  rcases h with ⟨e, rfl, he⟩ | ⟨e, rfl, he⟩
  · exact .inl ⟨e, rfl, he⟩
  · exact .inr ⟨e, rfl, he⟩

theorem effectOk_of_noStore {s : State} {e : Effect} (h : e.mw = none) : EffectOk s e := by
  intro addr n v hv; rw [h] at hv; cases hv

theorem branch_concludes (s : State) (taken : Bool) (imm : Word) : Concludes s (branch s taken imm) := by
  unfold branch
  split
  · rw [checkTarget_eq]
    by_cases h : s.config.checkMisalignedJump = true ∧ (s.relTarget imm).getLsbD 0 = true
    · rw [if_pos h]; exact .inr ⟨_, rfl, h⟩
    · rw [if_neg h]; exact .inl ⟨_, rfl, effectOk_of_noStore rfl⟩
  · exact .inl ⟨_, rfl, effectOk_of_noStore rfl⟩

theorem load_concludes (s : State) {n : Nat} (hn : sizeOk n = true) (extend : Word → Word) (rd rs1 : Reg) (imm : Word) :
    Concludes s (load s n extend rd rs1 imm) := by
  unfold load
  rw [memRead_eq hn]
  cases inRange s.config (s.effectiveAddr rs1 imm) n
  · exact .inr ⟨_, rfl, trivial⟩
  · exact .inl ⟨_, rfl, effectOk_of_noStore rfl⟩

theorem store_concludes (s : State) {n : Nat} (hn : sizeOk n = true) (rs2 rs1 : Reg) (imm : Word) :
    Concludes s (store s n rs2 rs1 imm) := by
  unfold store
  rw [memWriteCheck_eq hn]
  cases h : inRange s.config (s.effectiveAddr rs1 imm) n
  · exact .inr ⟨_, rfl, trivial⟩
  · refine .inl ⟨_, rfl, ?_⟩
    intro addr k v hv
    cases hv
    exact ⟨hn, h⟩

/-- What a computational instruction does. -/
theorem compute_cases (s : State) (rd : Reg) (v : Word) :
    ∃ e, s.compute rd v = .next (s.commit e) ∧ EffectOk s e :=
  ⟨s.regEffect rd v, rfl, effectOk_of_noStore rfl⟩

/-- What one instruction can do: every one answers a next state, which is a commit or a halt. -/
theorem exec_cases (i : Instr) (s : State) :
    (∃ e, exec i s = .next (s.commit e) ∧ EffectOk s e) ∨ (∃ r, exec i s = .next (s.raise r) ∧ RaiseOk s r) := by
  cases i with
  | jal rd imm =>
    simp only [exec, execJal, checkTarget_eq]
    by_cases h : s.config.checkMisalignedJump = true ∧ (s.relTarget imm).getLsbD 0 = true
    · rw [if_pos h]; exact .inr ⟨_, rfl, h⟩
    · rw [if_neg h]; exact .inl ⟨_, rfl, effectOk_of_noStore rfl⟩
  | jalr rd rs1 imm => exact .inl ⟨_, rfl, effectOk_of_noStore rfl⟩
  | beq rs1 rs2 imm => exact conclude_cases (branch_concludes s _ imm)
  | bne rs1 rs2 imm => exact conclude_cases (branch_concludes s _ imm)
  | blt rs1 rs2 imm => exact conclude_cases (branch_concludes s _ imm)
  | bge rs1 rs2 imm => exact conclude_cases (branch_concludes s _ imm)
  | bltu rs1 rs2 imm => exact conclude_cases (branch_concludes s _ imm)
  | bgeu rs1 rs2 imm => exact conclude_cases (branch_concludes s _ imm)
  | lb rd rs1 imm => exact conclude_cases (load_concludes s rfl _ rd rs1 imm)
  | lh rd rs1 imm => exact conclude_cases (load_concludes s rfl _ rd rs1 imm)
  | lw rd rs1 imm => exact conclude_cases (load_concludes s rfl _ rd rs1 imm)
  | lbu rd rs1 imm => exact conclude_cases (load_concludes s rfl _ rd rs1 imm)
  | lhu rd rs1 imm => exact conclude_cases (load_concludes s rfl _ rd rs1 imm)
  | sb rs2 rs1 imm => exact conclude_cases (store_concludes s rfl rs2 rs1 imm)
  | sh rs2 rs1 imm => exact conclude_cases (store_concludes s rfl rs2 rs1 imm)
  | sw rs2 rs1 imm => exact conclude_cases (store_concludes s rfl rs2 rs1 imm)
  | miscMem word => exact .inr ⟨_, rfl, trivial⟩
  | system imm rs1 f3 rd => exact .inr ⟨_, rfl, trivial⟩
  | _ => exact .inl (compute_cases s _ _)

end Sys2Proof.Machine

namespace Sys2Proof

open Machine

section selectErrors

variable {w : Word} {r : Raise} {f7 : BitVec 7} {f3 : BitVec 3} {op : BitVec 7} {rd rs1 rs2 : Reg} {imm : Word}

theorem selectOp_error (h : selectOp w f7 f3 rd rs1 rs2 = .error r) : r = .invalidEncoding w := by
  unfold selectOp at h
  repeat' split at h
  all_goals cases h
  all_goals rfl

theorem selectOpImm_error (h : selectOpImm w f3 rd rs1 imm = .error r) : r = .invalidEncoding w := by
  unfold selectOpImm at h
  repeat' split at h
  all_goals cases h
  all_goals rfl

theorem selectLoad_error (h : selectLoad w f3 rd rs1 imm = .error r) : r = .invalidEncoding w := by
  unfold selectLoad at h
  repeat' split at h
  all_goals cases h
  all_goals rfl

theorem selectStore_error (h : selectStore w f3 rs2 rs1 imm = .error r) : r = .invalidEncoding w := by
  unfold selectStore at h
  repeat' split at h
  all_goals cases h
  all_goals rfl

theorem selectBranch_error (h : selectBranch w f3 rs1 rs2 imm = .error r) : r = .invalidEncoding w := by
  unfold selectBranch at h
  repeat' split at h
  all_goals cases h
  all_goals rfl

theorem selectI_error (h : selectI w op f3 rd rs1 imm = .error r) : r = .invalidEncoding w := by
  unfold selectI at h
  split at h
  · exact selectLoad_error h
  · split at h
    · exact selectOpImm_error h
    · repeat' split at h
      all_goals cases h
      all_goals rfl

/-- The only error of the selection (30_encoding.md R103). -/
theorem select_error {rec : Record} (h : select w rec = .error r) : r = .invalidEncoding w := by
  cases rec with
  | r f7 rs2 rs1 f3 rd op => exact selectOp_error h
  | i imm rs1 f3 rd op => exact selectI_error h
  | s imm rs2 rs1 f3 op => exact selectStore_error h
  | b imm rs2 rs1 f3 op => exact selectBranch_error h
  | u imm rd op =>
    by_cases ho : op = 0x37#7 <;> simp [select, ho] at h
  | j imm rd op => cases h

end selectErrors

/-- The errors of the record extraction (30_encoding.md R101). -/
theorem decodeRecord_error {w : Word} {r : Raise} (h : decodeRecord w = .error r) :
    r = .unknownOpcode w ∨ r = .invalidEncoding w := by
  unfold decodeRecord at h
  split at h <;> cases h
  · exact .inl rfl
  · exact .inr rfl

/-- The only errors of the decoder, each carrying the word (60_exceptions.md R221). -/
theorem decode_error {w : Word} {r : Raise} (h : decode w = .error r) : r = .unknownOpcode w ∨ r = .invalidEncoding w := by
  unfold decode at h
  split at h
  · cases h
  · cases hd : decodeRecord w with
    | ok rec => rw [hd] at h; exact .inr (select_error h)
    | error r' => rw [hd] at h; cases h; exact decodeRecord_error hd

end Sys2Proof

namespace Sys2Proof.Machine

/-- What a fetch that decodes to nothing raises. -/
theorem fetchDecode_error {s : State} {r : Raise} (h : fetchDecode s = .error r) :
    r = .unknownOpcode (fetchWord s) ∨ r = .invalidEncoding (fetchWord s) :=
  decode_error h

/-- What one step can do: it starts Running, and it halts with EXHAUSTED, halts with an error, or commits one effect. -/
theorem step_cases {s t : State} (h : step s = .next t) :
    s.run = .running ∧
      ((fetchable s = false ∧ t = exhaust s) ∨
        (fetchable s = true ∧ ∃ r, t = s.raise r ∧ RaiseOk s r) ∨
        (fetchable s = true ∧ ∃ e, t = s.commit e ∧ EffectOk s e)) := by
  unfold step at h
  split at h
  · cases h
  · rename_i hrun
    refine ⟨hrun, ?_⟩
    split at h
    · rename_i hf
      split at h
      · rename_i i hi
        rcases exec_cases i s with ⟨e, he, hok⟩ | ⟨r, hr, hok⟩
        · rw [he] at h; cases h
          exact .inr (.inr ⟨hf, e, rfl, hok⟩)
        · rw [hr] at h; cases h
          exact .inr (.inl ⟨hf, r, rfl, hok⟩)
      · rename_i r hr
        cases h
        refine .inr (.inl ⟨hf, r, rfl, ?_⟩)
        rcases fetchDecode_error hr with rfl | rfl <;> trivial
    · rename_i hf
      cases h
      exact .inl ⟨by simpa using hf, rfl⟩

/-- A step of a Running block always answers a next state. -/
theorem step_next_of_running {s : State} (h : s.run = .running) : ∃ t, step s = .next t := by
  unfold step
  rw [h]
  simp only
  split
  · split
    · rename_i i _
      rcases exec_cases i s with ⟨e, he, _⟩ | ⟨r, hr, _⟩
      · exact ⟨_, he⟩
      · exact ⟨_, hr⟩
    · exact ⟨_, rfl⟩
  · exact ⟨_, rfl⟩

end Sys2Proof.Machine
end

