-- ==== Sys2Proof/Laws/Effects.lean ====
section
/-!
SUPPORT. What each instruction can write, where it can go next and what it can raise, said once by `exec_effect`; later proofs about
frames and halts take this apart instead of unfolding `exec`.
-/

namespace Sys2Proof

/-- The destination register of an instruction, if it has one. -/
def Instr.dest : Instr → Option Reg
  | .addi rd _ _ => some rd
  | .slti rd _ _ => some rd
  | .sltiu rd _ _ => some rd
  | .xori rd _ _ => some rd
  | .ori rd _ _ => some rd
  | .andi rd _ _ => some rd
  | .slli rd _ _ => some rd
  | .srli rd _ _ => some rd
  | .srai rd _ _ => some rd
  | .add rd _ _ => some rd
  | .sub rd _ _ => some rd
  | .sll rd _ _ => some rd
  | .slt rd _ _ => some rd
  | .sltu rd _ _ => some rd
  | .xor rd _ _ => some rd
  | .srl rd _ _ => some rd
  | .sra rd _ _ => some rd
  | .or rd _ _ => some rd
  | .and rd _ _ => some rd
  | .lui rd _ => some rd
  | .auipc rd _ => some rd
  | .jal rd _ => some rd
  | .jalr rd _ _ => some rd
  | .beq _ _ _ => none
  | .bne _ _ _ => none
  | .blt _ _ _ => none
  | .bge _ _ _ => none
  | .bltu _ _ _ => none
  | .bgeu _ _ _ => none
  | .lb rd _ _ => some rd
  | .lh rd _ _ => some rd
  | .lw rd _ _ => some rd
  | .lbu rd _ _ => some rd
  | .lhu rd _ _ => some rd
  | .sb _ _ _ => none
  | .sh _ _ _ => none
  | .sw _ _ _ => none
  | .miscMem _ => none
  | .system _ _ _ _ => none

end Sys2Proof

namespace Sys2Proof.Machine

/-- The address and size of an instruction's store, if it is one. -/
def storeOf (s : State) : Instr → Option (Word × Nat)
  | .sb _ rs1 imm => some (s.effectiveAddr rs1 imm, 1)
  | .sh _ rs1 imm => some (s.effectiveAddr rs1 imm, 2)
  | .sw _ rs1 imm => some (s.effectiveAddr rs1 imm, 4)
  | _ => none

/-- What the PC can be after an instruction that commits. -/
def NextPc (s : State) (pc : Word) : Instr → Prop
  | .jal _ imm => pc = s.relTarget imm
  | .jalr _ rs1 imm => pc = s.regTarget rs1 imm
  | .beq _ _ imm => pc = s.relTarget imm ∨ pc = s.pcPlus4
  | .bne _ _ imm => pc = s.relTarget imm ∨ pc = s.pcPlus4
  | .blt _ _ imm => pc = s.relTarget imm ∨ pc = s.pcPlus4
  | .bge _ _ imm => pc = s.relTarget imm ∨ pc = s.pcPlus4
  | .bltu _ _ imm => pc = s.relTarget imm ∨ pc = s.pcPlus4
  | .bgeu _ _ imm => pc = s.relTarget imm ∨ pc = s.pcPlus4
  | _ => pc = s.pcPlus4

/-- The misaligned-jump error of a transfer with immediate `imm`: 41_control_transfer.md R171. -/
def RaisesTarget (s : State) (imm : Word) (r : Raise) : Prop :=
  s.config.checkMisalignedJump = true ∧ (s.relTarget imm).getLsbD 0 = true ∧ r = .misalignedJump (s.relTarget imm)

/-- What an instruction can raise at execute: 60_exceptions.md R221. -/
def Raises (s : State) (r : Raise) : Instr → Prop
  | .jal _ imm => RaisesTarget s imm r
  | .beq _ _ imm => RaisesTarget s imm r
  | .bne _ _ imm => RaisesTarget s imm r
  | .blt _ _ imm => RaisesTarget s imm r
  | .bge _ _ imm => RaisesTarget s imm r
  | .bltu _ _ imm => RaisesTarget s imm r
  | .bgeu _ _ imm => RaisesTarget s imm r
  | .lb _ rs1 imm => r = .outOfRangeMemory (s.effectiveAddr rs1 imm)
  | .lh _ rs1 imm => r = .outOfRangeMemory (s.effectiveAddr rs1 imm)
  | .lw _ rs1 imm => r = .outOfRangeMemory (s.effectiveAddr rs1 imm)
  | .lbu _ rs1 imm => r = .outOfRangeMemory (s.effectiveAddr rs1 imm)
  | .lhu _ rs1 imm => r = .outOfRangeMemory (s.effectiveAddr rs1 imm)
  | .sb _ rs1 imm => r = .outOfRangeMemory (s.effectiveAddr rs1 imm)
  | .sh _ rs1 imm => r = .outOfRangeMemory (s.effectiveAddr rs1 imm)
  | .sw _ rs1 imm => r = .outOfRangeMemory (s.effectiveAddr rs1 imm)
  | .miscMem word => r = .invalidEncoding word
  | .system imm rs1 funct3 rd => r = .invalidEncoding (encI imm rs1 funct3 rd 0x73#7)
  | _ => False

/-- An effect that an instruction can commit. -/
structure EffectOf (s : State) (i : Instr) (e : Effect) : Prop where
  wr : ∀ rd v, e.wr = some (rd, v) → i.dest = some rd
  mw : ∀ addr n v, e.mw = some (addr, n, v) → storeOf s i = some (addr, n)
  nextPc : NextPc s e.nextPc i
  ok : EffectOk s e

theorem branch_effect (s : State) (taken : Bool) (imm : Word) :
    (∃ pc, branch s taken imm = .ok { wr := none, mw := none, nextPc := pc } ∧ (pc = s.relTarget imm ∨ pc = s.pcPlus4)) ∨
      (∃ r, branch s taken imm = .error r ∧ RaisesTarget s imm r) := by
  unfold branch
  split
  · rw [checkTarget_eq]
    by_cases h : s.config.checkMisalignedJump = true ∧ (s.relTarget imm).getLsbD 0 = true
    · rw [if_pos h]; exact .inr ⟨_, rfl, h.1, h.2, rfl⟩
    · rw [if_neg h]; exact .inl ⟨_, rfl, .inl rfl⟩
  · exact .inl ⟨_, rfl, .inr rfl⟩

theorem load_effect (s : State) {n : Nat} (hn : sizeOk n = true) (extend : Word → Word) (rd rs1 : Reg) (imm : Word) :
    (∃ v, load s n extend rd rs1 imm = .ok (s.regEffect rd v)) ∨
      load s n extend rd rs1 imm = .error (.outOfRangeMemory (s.effectiveAddr rs1 imm)) := by
  unfold load
  rw [memRead_eq hn]
  cases inRange s.config (s.effectiveAddr rs1 imm) n
  · exact .inr rfl
  · exact .inl ⟨_, rfl⟩

theorem store_effect (s : State) {n : Nat} (hn : sizeOk n = true) (rs2 rs1 : Reg) (imm : Word) :
    (inRange s.config (s.effectiveAddr rs1 imm) n = true ∧ store s n rs2 rs1 imm =
        .ok { wr := none, mw := some (s.effectiveAddr rs1 imm, n, s.readReg rs2), nextPc := s.pcPlus4 }) ∨
      store s n rs2 rs1 imm = .error (.outOfRangeMemory (s.effectiveAddr rs1 imm)) := by
  unfold store
  rw [memWriteCheck_eq hn]
  cases h : inRange s.config (s.effectiveAddr rs1 imm) n
  · exact .inr rfl
  · exact .inl ⟨rfl, rfl⟩

/-- An instruction either commits one effect of its own or raises one error of its own. -/
abbrev ExecDoes (s : State) (i : Instr) : Prop :=
  (∃ e, exec i s = .next (s.commit e) ∧ EffectOf s i e) ∨ (∃ r, exec i s = .next (s.raise r) ∧ Raises s r i)

theorem compute_does {s : State} {i : Instr} {rd : Reg} {v : Word} (h : exec i s = s.compute rd v) (hd : i.dest = some rd)
    (hp : NextPc s s.pcPlus4 i) : ExecDoes s i := by
  refine .inl ⟨s.regEffect rd v, h, fun rd' v' hw => ?_, fun _ _ _ hm => (by cases hm), hp, effectOk_of_noStore rfl⟩
  cases hw; exact hd

theorem branch_does {s : State} {i : Instr} {taken : Bool} {imm : Word} (h : exec i s = conclude s (branch s taken imm))
    (hp : ∀ pc, pc = s.relTarget imm ∨ pc = s.pcPlus4 → NextPc s pc i) (hr : ∀ r, RaisesTarget s imm r → Raises s r i) :
    ExecDoes s i := by
  rcases branch_effect s taken imm with ⟨pc, hb, hpc⟩ | ⟨r, hb, hrr⟩
  · exact .inl ⟨_, by rw [h, hb]; rfl, fun _ _ hw => (by cases hw), fun _ _ _ hm => (by cases hm), hp pc hpc, effectOk_of_noStore rfl⟩
  · exact .inr ⟨r, by rw [h, hb]; rfl, hr r hrr⟩

theorem load_does {s : State} {i : Instr} {n : Nat} {extend : Word → Word} {rd rs1 : Reg} {imm : Word} (hn : sizeOk n = true)
    (h : exec i s = conclude s (load s n extend rd rs1 imm)) (hd : i.dest = some rd) (hp : NextPc s s.pcPlus4 i)
    (hr : Raises s (.outOfRangeMemory (s.effectiveAddr rs1 imm)) i) : ExecDoes s i := by
  rcases load_effect s hn extend rd rs1 imm with ⟨v, hl⟩ | hl
  · exact compute_does (v := v) (by rw [h, hl]; rfl) hd hp
  · exact .inr ⟨_, by rw [h, hl]; rfl, hr⟩

theorem store_does {s : State} {i : Instr} {n : Nat} {rs2 rs1 : Reg} {imm : Word} (hn : sizeOk n = true)
    (h : exec i s = conclude s (store s n rs2 rs1 imm)) (hs : storeOf s i = some (s.effectiveAddr rs1 imm, n))
    (hp : NextPc s s.pcPlus4 i) (hr : Raises s (.outOfRangeMemory (s.effectiveAddr rs1 imm)) i) : ExecDoes s i := by
  rcases store_effect s hn rs2 rs1 imm with ⟨hin, hl⟩ | hl
  · refine .inl ⟨_, by rw [h, hl]; rfl, fun _ _ hw => (by cases hw), fun a k v hm => ?_, hp, fun a k v hm => ?_⟩
    · cases hm; exact hs
    · cases hm; exact ⟨hn, hin⟩
  · exact .inr ⟨_, by rw [h, hl]; rfl, hr⟩

/-- What one instruction can do, with its destination, store, next PC and errors. -/
theorem exec_effect (i : Instr) (s : State) : ExecDoes s i := by
  cases i with
  | jal rd imm =>
    by_cases h : s.config.checkMisalignedJump = true ∧ (s.relTarget imm).getLsbD 0 = true
    · refine .inr ⟨.misalignedJump (s.relTarget imm), ?_, h.1, h.2, rfl⟩
      simp only [exec, execJal, checkTarget_eq]; rw [if_pos h]; rfl
    · refine .inl ⟨jumpEffect s rd (s.relTarget imm), ?_, fun _ _ hw => (by cases hw; rfl), fun _ _ _ hm => (by cases hm), rfl,
        effectOk_of_noStore rfl⟩
      simp only [exec, execJal, checkTarget_eq]; rw [if_neg h]; rfl
  | jalr rd rs1 imm =>
    exact .inl ⟨jumpEffect s rd (s.regTarget rs1 imm), rfl, fun _ _ hw => (by cases hw; rfl), fun _ _ _ hm => (by cases hm), rfl,
      effectOk_of_noStore rfl⟩
  | beq rs1 rs2 imm => exact branch_does rfl (fun _ h => h) (fun _ h => h)
  | bne rs1 rs2 imm => exact branch_does rfl (fun _ h => h) (fun _ h => h)
  | blt rs1 rs2 imm => exact branch_does rfl (fun _ h => h) (fun _ h => h)
  | bge rs1 rs2 imm => exact branch_does rfl (fun _ h => h) (fun _ h => h)
  | bltu rs1 rs2 imm => exact branch_does rfl (fun _ h => h) (fun _ h => h)
  | bgeu rs1 rs2 imm => exact branch_does rfl (fun _ h => h) (fun _ h => h)
  | lb rd rs1 imm => exact load_does (n := 1) rfl rfl rfl rfl rfl
  | lh rd rs1 imm => exact load_does (n := 2) rfl rfl rfl rfl rfl
  | lw rd rs1 imm => exact load_does (n := 4) rfl rfl rfl rfl rfl
  | lbu rd rs1 imm => exact load_does (n := 1) rfl rfl rfl rfl rfl
  | lhu rd rs1 imm => exact load_does (n := 2) rfl rfl rfl rfl rfl
  | sb rs2 rs1 imm => exact store_does (n := 1) rfl rfl rfl rfl rfl
  | sh rs2 rs1 imm => exact store_does (n := 2) rfl rfl rfl rfl rfl
  | sw rs2 rs1 imm => exact store_does (n := 4) rfl rfl rfl rfl rfl
  | miscMem word => exact .inr ⟨_, rfl, rfl⟩
  | system imm rs1 funct3 rd => exact .inr ⟨_, rfl, rfl⟩
  | _ => exact compute_does rfl rfl rfl

/-- A Running block whose fetch succeeds goes by what the fetched word decodes to. -/
theorem step_eq {s : State} (hr : s.run = .running) (hc : WordInCode s.config s.pc) :
    step s = match fetchDecode s with | .ok i => exec i s | .error r => .next (s.raise r) := by
  have hf := (fetchable_iff s).2 hc
  cases h : fetchDecode s <;> simp only [step, hr, hf, h, if_true]

/-- What one step can do, with what was fetched and decoded: `step_cases` with its reasons. -/
theorem step_inversion {s t : State} (h : step s = .next t) :
    s.run = .running ∧
      ((¬ WordInCode s.config s.pc ∧ t = exhaust s) ∨
        (WordInCode s.config s.pc ∧
          ((∃ r, decode (fetchWord s) = .error r ∧ t = s.raise r) ∨
            (∃ i, decode (fetchWord s) = .ok i ∧
              ((∃ r, t = s.raise r ∧ Raises s r i) ∨ (∃ e, t = s.commit e ∧ EffectOf s i e)))))) := by
  have hr := (step_cases h).1
  refine ⟨hr, ?_⟩
  by_cases hc : WordInCode s.config s.pc
  · refine .inr ⟨hc, ?_⟩
    rw [step_eq hr hc] at h
    cases hd : fetchDecode s with
    | error r => rw [hd] at h; cases h; exact .inl ⟨r, hd, rfl⟩
    | ok i =>
      rw [hd] at h
      rcases exec_effect i s with ⟨e, he, hof⟩ | ⟨r, he, ho⟩
      · simp only [he] at h; cases h; exact .inr ⟨i, hd, .inr ⟨e, rfl, hof⟩⟩
      · simp only [he] at h; cases h; exact .inr ⟨i, hd, .inl ⟨r, rfl, ho⟩⟩
  · refine .inl ⟨hc, ?_⟩
    unfold step at h
    rw [hr] at h
    simp only at h
    rw [if_neg (fun h' => hc ((fetchable_iff s).1 h'))] at h
    cases h
    rfl

end Sys2Proof.Machine
end

