-- ==== Sys2Proof/Laws/Encoding.lean ====
section
/-!
SUPPORT. The other half of the round trip: every encoding form, given the fields and the immediate of a word, writes that word back; the
shift immediates; and concatenations as numbers.
-/

namespace Sys2Proof

open Machine

/-! ## Writing a word back from its fields -/

theorem encR_fields (w : Word) :
    encR (fieldFunct7 w) (fieldRs2 w) (fieldRs1 w) (fieldFunct3 w) (fieldRd w) (fieldOpcode w) = w := by
  unfold encR fieldFunct7 fieldRs2 fieldRs1 fieldFunct3 fieldRd fieldOpcode
  apply BitVec.eq_of_getLsbD_eq
  intro i hi
  simp only [BitVec.getLsbD_append, BitVec.getLsbD_extractLsb']
  interval_cases i <;> simp

theorem encI_fields (w : Word) : encI (immI w) (fieldRs1 w) (fieldFunct3 w) (fieldRd w) (fieldOpcode w) = w := by
  unfold encI immI fieldRs1 fieldFunct3 fieldRd fieldOpcode
  rw [extractLsb'_sextN _ (by decide) (by decide) _ _ (by decide)]
  apply BitVec.eq_of_getLsbD_eq
  intro i hi
  simp only [BitVec.getLsbD_append, BitVec.getLsbD_extractLsb']
  interval_cases i <;> simp

theorem encS_fields (w : Word) : encS (immS w) (fieldRs2 w) (fieldRs1 w) (fieldFunct3 w) (fieldOpcode w) = w := by
  unfold encS immS fieldRs2 fieldRs1 fieldFunct3 fieldOpcode
  rw [extractLsb'_sextN _ (by decide) (by decide) _ _ (by decide), extractLsb'_sextN _ (by decide) (by decide) _ _ (by decide)]
  apply BitVec.eq_of_getLsbD_eq
  intro i hi
  simp only [BitVec.getLsbD_append, BitVec.getLsbD_extractLsb']
  interval_cases i <;> simp

theorem encB_fields (w : Word) : encB (immB w) (fieldRs2 w) (fieldRs1 w) (fieldFunct3 w) (fieldOpcode w) = w := by
  unfold encB immB fieldRs2 fieldRs1 fieldFunct3 fieldOpcode
  rw [extractLsb'_sextN _ (by decide) (by decide) _ _ (by decide), extractLsb'_sextN _ (by decide) (by decide) _ _ (by decide),
    extractLsb'_sextN _ (by decide) (by decide) _ _ (by decide), extractLsb'_sextN _ (by decide) (by decide) _ _ (by decide)]
  apply BitVec.eq_of_getLsbD_eq
  intro i hi
  simp only [BitVec.getLsbD_append, BitVec.getLsbD_extractLsb']
  interval_cases i <;> simp

theorem encU_fields (w : Word) : encU ((immU w).extractLsb' 12 20) (fieldRd w) (fieldOpcode w) = w := by
  unfold encU immU fieldRd fieldOpcode
  apply BitVec.eq_of_getLsbD_eq
  intro i hi
  simp only [BitVec.getLsbD_append, BitVec.getLsbD_extractLsb']
  interval_cases i <;> simp

theorem encJ_fields (w : Word) : encJ (immJ w) (fieldRd w) (fieldOpcode w) = w := by
  unfold encJ immJ fieldRd fieldOpcode
  rw [extractLsb'_sextN _ (by decide) (by decide) _ _ (by decide), extractLsb'_sextN _ (by decide) (by decide) _ _ (by decide),
    extractLsb'_sextN _ (by decide) (by decide) _ _ (by decide), extractLsb'_sextN _ (by decide) (by decide) _ _ (by decide)]
  apply BitVec.eq_of_getLsbD_eq
  intro i hi
  simp only [BitVec.getLsbD_append, BitVec.getLsbD_extractLsb']
  interval_cases i <;> simp

/-! ## Shift immediates -/

theorem shiftImm_fields (w : Word) : shiftImm (fieldFunct7 w) (fieldRs2 w) = immI w := by
  unfold shiftImm immI fieldFunct7 fieldRs2
  congr 1
  apply BitVec.eq_of_getLsbD_eq
  intro i hi
  simp only [BitVec.getLsbD_append, BitVec.getLsbD_extractLsb']
  interval_cases i <;> simp

theorem shiftImm_key (key : BitVec 7) (shamt : BitVec 5) : (shiftImm key shamt).extractLsb' 5 7 = key := by
  unfold shiftImm
  rw [extractLsb'_sextN _ (by decide) (by decide) _ _ (by decide)]
  apply BitVec.eq_of_getLsbD_eq
  intro i hi
  simp only [BitVec.getLsbD_extractLsb', BitVec.getLsbD_append]
  interval_cases i <;> simp

theorem shiftImm_shamt (key : BitVec 7) (shamt : BitVec 5) : (shiftImm key shamt).extractLsb' 0 5 = shamt := by
  unfold shiftImm
  rw [extractLsb'_sextN _ (by decide) (by decide) _ _ (by decide)]
  apply BitVec.eq_of_getLsbD_eq
  intro i hi
  simp only [BitVec.getLsbD_extractLsb', BitVec.getLsbD_append]
  interval_cases i <;> simp

theorem shiftImm_signExtend (key : BitVec 7) (shamt : BitVec 5) :
    ((shiftImm key shamt).extractLsb' 0 12).signExtend 32 = shiftImm key shamt := by
  unfold shiftImm
  rw [extractLsb'_sextN _ (by decide) (by decide) _ _ (by decide), ← sextN_eq_signExtend _ (by decide) (by decide)]
  congr 1
  apply BitVec.eq_of_getLsbD_eq
  intro i hi
  simp [hi]

/-! ## Concatenations as numbers -/

theorem toNat_concat {m n : Nat} (a : BitVec m) (b : BitVec n) : (a ++ b).toNat = a.toNat * 2 ^ n + b.toNat := by
  rw [BitVec.toNat_append, Nat.shiftLeft_eq, mul_comm, ← Nat.two_pow_add_eq_or_of_lt b.isLt]

theorem toNat_bits (w : Word) (lo len : Nat) : (w.extractLsb' lo len).toNat = w.toNat / 2 ^ lo % 2 ^ len := by
  rw [BitVec.extractLsb'_toNat, Nat.shiftRight_eq_div_pow]

/-- A sign bit in front of an n-bit value weighs `-2^n`. -/
theorem toInt_sign_concat {n : Nat} (a : BitVec 1) (b : BitVec n) :
    (a ++ b).toInt = (b.toNat : Int) - (if a = 1#1 then 2 ^ n else 0) := by
  have ha : a = 0#1 ∨ a = 1#1 := by revert a; decide
  have hb := b.isLt
  rw [BitVec.toInt_eq_toNat_cond, toNat_concat]
  rcases ha with rfl | rfl <;> simp [pow_add] <;> omega

/-- The integer value of a sign-extended field is that of the field. -/
theorem toInt_sextN {n : Nat} (v : BitVec n) (h0 : 0 < n) (h : n ≤ 32) : (sextN v).toInt = v.toInt := by
  rw [sextN_eq_signExtend v h0 h, BitVec.toInt_signExtend_of_le h]

theorem funct3_cases (f : BitVec 3) : f = 0#3 ∨ f = 1#3 ∨ f = 2#3 ∨ f = 3#3 ∨ f = 4#3 ∨ f = 5#3 ∨ f = 6#3 ∨ f = 7#3 := by
  revert f
  decide

end Sys2Proof
end

