-- ==== Sys2Proof/Laws/PerInstr.lean ====
section
/-!
SUPPORT. The per-instruction families of LAWS.json. `RowBits`: the word of a well-formed instruction carries the fixed bits that its row
of spec/opcode_table.json gives, `word & mask = match`.
-/

namespace Sys2Proof

/-- The `mask` and `match` of an instruction's row, copied from spec/opcode_table.json. -/
def Instr.row : Instr → Word × Word
  | .addi _ _ _ => (0x0000707F#32, 0x00000013#32)
  | .slti _ _ _ => (0x0000707F#32, 0x00002013#32)
  | .sltiu _ _ _ => (0x0000707F#32, 0x00003013#32)
  | .xori _ _ _ => (0x0000707F#32, 0x00004013#32)
  | .ori _ _ _ => (0x0000707F#32, 0x00006013#32)
  | .andi _ _ _ => (0x0000707F#32, 0x00007013#32)
  | .slli _ _ _ => (0xFE00707F#32, 0x00001013#32)
  | .srli _ _ _ => (0xFE00707F#32, 0x00005013#32)
  | .srai _ _ _ => (0xFE00707F#32, 0x40005013#32)
  | .add _ _ _ => (0xFE00707F#32, 0x00000033#32)
  | .sub _ _ _ => (0xFE00707F#32, 0x40000033#32)
  | .sll _ _ _ => (0xFE00707F#32, 0x00001033#32)
  | .slt _ _ _ => (0xFE00707F#32, 0x00002033#32)
  | .sltu _ _ _ => (0xFE00707F#32, 0x00003033#32)
  | .xor _ _ _ => (0xFE00707F#32, 0x00004033#32)
  | .srl _ _ _ => (0xFE00707F#32, 0x00005033#32)
  | .sra _ _ _ => (0xFE00707F#32, 0x40005033#32)
  | .or _ _ _ => (0xFE00707F#32, 0x00006033#32)
  | .and _ _ _ => (0xFE00707F#32, 0x00007033#32)
  | .lui _ _ => (0x0000007F#32, 0x00000037#32)
  | .auipc _ _ => (0x0000007F#32, 0x00000017#32)
  | .jal _ _ => (0x0000007F#32, 0x0000006F#32)
  | .jalr _ _ _ => (0x0000707F#32, 0x00000067#32)
  | .beq _ _ _ => (0x0000707F#32, 0x00000063#32)
  | .bne _ _ _ => (0x0000707F#32, 0x00001063#32)
  | .blt _ _ _ => (0x0000707F#32, 0x00004063#32)
  | .bge _ _ _ => (0x0000707F#32, 0x00005063#32)
  | .bltu _ _ _ => (0x0000707F#32, 0x00006063#32)
  | .bgeu _ _ _ => (0x0000707F#32, 0x00007063#32)
  | .lb _ _ _ => (0x0000707F#32, 0x00000003#32)
  | .lh _ _ _ => (0x0000707F#32, 0x00001003#32)
  | .lw _ _ _ => (0x0000707F#32, 0x00002003#32)
  | .lbu _ _ _ => (0x0000707F#32, 0x00004003#32)
  | .lhu _ _ _ => (0x0000707F#32, 0x00005003#32)
  | .sb _ _ _ => (0x0000707F#32, 0x00000023#32)
  | .sh _ _ _ => (0x0000707F#32, 0x00001023#32)
  | .sw _ _ _ => (0x0000707F#32, 0x00002023#32)
  | .miscMem _ => (0x0000007F#32, 0x0000000F#32)
  | .system _ _ _ _ => (0x0000007F#32, 0x00000073#32)

theorem mask_opcode (w : Word) : w &&& 0x0000007F#32 = (0#25 ++ fieldOpcode w : BitVec 32) := by
  unfold fieldOpcode
  apply BitVec.eq_of_getLsbD_eq
  intro i hi
  simp only [BitVec.getLsbD_and, BitVec.getLsbD_append, BitVec.getLsbD_extractLsb']
  interval_cases i <;> simp

theorem mask_funct3 (w : Word) : w &&& 0x0000707F#32 = (0#17 ++ fieldFunct3 w ++ 0#5 ++ fieldOpcode w : BitVec 32) := by
  unfold fieldOpcode fieldFunct3
  apply BitVec.eq_of_getLsbD_eq
  intro i hi
  simp only [BitVec.getLsbD_and, BitVec.getLsbD_append, BitVec.getLsbD_extractLsb']
  interval_cases i <;> simp

theorem mask_funct7 (w : Word) : w &&& 0xFE00707F#32 = (fieldFunct7 w ++ 0#10 ++ fieldFunct3 w ++ 0#5 ++ fieldOpcode w : BitVec 32) := by
  unfold fieldOpcode fieldFunct3 fieldFunct7
  apply BitVec.eq_of_getLsbD_eq
  intro i hi
  simp only [BitVec.getLsbD_and, BitVec.getLsbD_append, BitVec.getLsbD_extractLsb']
  interval_cases i <;> simp

theorem fieldFunct7_encI (imm : Word) (rs1 : Reg) (f3 : BitVec 3) (rd : Reg) (op : BitVec 7) :
    fieldFunct7 (encI imm rs1 f3 rd op) = imm.extractLsb' 5 7 := by
  unfold fieldFunct7 encI
  apply BitVec.eq_of_getLsbD_eq
  intro i hi
  simp only [BitVec.getLsbD_append, BitVec.getLsbD_extractLsb']
  interval_cases i <;> simp

end Sys2Proof

namespace Sys2Proof.Laws.RowBits

open Sys2Proof

/-- The fixed bits of the row stand in the encoded word. -/
def Statement (i : Instr) : Prop :=
  i.wf = true → encode i &&& i.row.1 = i.row.2

theorem addi (rd rs1 : Reg) (imm : Word) : Statement (.addi rd rs1 imm) := by
  intro _
  simp [encode, Instr.row, mask_funct3]

theorem slti (rd rs1 : Reg) (imm : Word) : Statement (.slti rd rs1 imm) := by
  intro _
  simp [encode, Instr.row, mask_funct3]

theorem sltiu (rd rs1 : Reg) (imm : Word) : Statement (.sltiu rd rs1 imm) := by
  intro _
  simp [encode, Instr.row, mask_funct3]

theorem xori (rd rs1 : Reg) (imm : Word) : Statement (.xori rd rs1 imm) := by
  intro _
  simp [encode, Instr.row, mask_funct3]

theorem ori (rd rs1 : Reg) (imm : Word) : Statement (.ori rd rs1 imm) := by
  intro _
  simp [encode, Instr.row, mask_funct3]

theorem andi (rd rs1 : Reg) (imm : Word) : Statement (.andi rd rs1 imm) := by
  intro _
  simp [encode, Instr.row, mask_funct3]

theorem slli (rd rs1 : Reg) (shamt : BitVec 5) : Statement (.slli rd rs1 shamt) := by
  intro _
  simp [encode, Instr.row, mask_funct7, fieldFunct7_encI, shiftImm_key]

theorem srli (rd rs1 : Reg) (shamt : BitVec 5) : Statement (.srli rd rs1 shamt) := by
  intro _
  simp [encode, Instr.row, mask_funct7, fieldFunct7_encI, shiftImm_key]

theorem srai (rd rs1 : Reg) (shamt : BitVec 5) : Statement (.srai rd rs1 shamt) := by
  intro _
  simp [encode, Instr.row, mask_funct7, fieldFunct7_encI, shiftImm_key]

theorem add (rd rs1 rs2 : Reg) : Statement (.add rd rs1 rs2) := by
  intro _
  simp [encode, Instr.row, mask_funct7]

theorem sub (rd rs1 rs2 : Reg) : Statement (.sub rd rs1 rs2) := by
  intro _
  simp [encode, Instr.row, mask_funct7]

theorem sll (rd rs1 rs2 : Reg) : Statement (.sll rd rs1 rs2) := by
  intro _
  simp [encode, Instr.row, mask_funct7]

theorem slt (rd rs1 rs2 : Reg) : Statement (.slt rd rs1 rs2) := by
  intro _
  simp [encode, Instr.row, mask_funct7]

theorem sltu (rd rs1 rs2 : Reg) : Statement (.sltu rd rs1 rs2) := by
  intro _
  simp [encode, Instr.row, mask_funct7]

theorem xor (rd rs1 rs2 : Reg) : Statement (.xor rd rs1 rs2) := by
  intro _
  simp [encode, Instr.row, mask_funct7]

theorem srl (rd rs1 rs2 : Reg) : Statement (.srl rd rs1 rs2) := by
  intro _
  simp [encode, Instr.row, mask_funct7]

theorem sra (rd rs1 rs2 : Reg) : Statement (.sra rd rs1 rs2) := by
  intro _
  simp [encode, Instr.row, mask_funct7]

theorem or (rd rs1 rs2 : Reg) : Statement (.or rd rs1 rs2) := by
  intro _
  simp [encode, Instr.row, mask_funct7]

theorem and (rd rs1 rs2 : Reg) : Statement (.and rd rs1 rs2) := by
  intro _
  simp [encode, Instr.row, mask_funct7]

theorem lui (rd : Reg) (imm : Word) : Statement (.lui rd imm) := by
  intro _
  simp [encode, Instr.row, mask_opcode]

theorem auipc (rd : Reg) (imm : Word) : Statement (.auipc rd imm) := by
  intro _
  simp [encode, Instr.row, mask_opcode]

theorem jal (rd : Reg) (imm : Word) : Statement (.jal rd imm) := by
  intro _
  simp [encode, Instr.row, mask_opcode]

theorem jalr (rd rs1 : Reg) (imm : Word) : Statement (.jalr rd rs1 imm) := by
  intro _
  simp [encode, Instr.row, mask_funct3]

theorem beq (rs1 rs2 : Reg) (imm : Word) : Statement (.beq rs1 rs2 imm) := by
  intro _
  simp [encode, Instr.row, mask_funct3]

theorem bne (rs1 rs2 : Reg) (imm : Word) : Statement (.bne rs1 rs2 imm) := by
  intro _
  simp [encode, Instr.row, mask_funct3]

theorem blt (rs1 rs2 : Reg) (imm : Word) : Statement (.blt rs1 rs2 imm) := by
  intro _
  simp [encode, Instr.row, mask_funct3]

theorem bge (rs1 rs2 : Reg) (imm : Word) : Statement (.bge rs1 rs2 imm) := by
  intro _
  simp [encode, Instr.row, mask_funct3]

theorem bltu (rs1 rs2 : Reg) (imm : Word) : Statement (.bltu rs1 rs2 imm) := by
  intro _
  simp [encode, Instr.row, mask_funct3]

theorem bgeu (rs1 rs2 : Reg) (imm : Word) : Statement (.bgeu rs1 rs2 imm) := by
  intro _
  simp [encode, Instr.row, mask_funct3]

theorem lb (rd rs1 : Reg) (imm : Word) : Statement (.lb rd rs1 imm) := by
  intro _
  simp [encode, Instr.row, mask_funct3]

theorem lh (rd rs1 : Reg) (imm : Word) : Statement (.lh rd rs1 imm) := by
  intro _
  simp [encode, Instr.row, mask_funct3]

theorem lw (rd rs1 : Reg) (imm : Word) : Statement (.lw rd rs1 imm) := by
  intro _
  simp [encode, Instr.row, mask_funct3]

theorem lbu (rd rs1 : Reg) (imm : Word) : Statement (.lbu rd rs1 imm) := by
  intro _
  simp [encode, Instr.row, mask_funct3]

theorem lhu (rd rs1 : Reg) (imm : Word) : Statement (.lhu rd rs1 imm) := by
  intro _
  simp [encode, Instr.row, mask_funct3]

theorem sb (rs2 rs1 : Reg) (imm : Word) : Statement (.sb rs2 rs1 imm) := by
  intro _
  simp [encode, Instr.row, mask_funct3]

theorem sh (rs2 rs1 : Reg) (imm : Word) : Statement (.sh rs2 rs1 imm) := by
  intro _
  simp [encode, Instr.row, mask_funct3]

theorem sw (rs2 rs1 : Reg) (imm : Word) : Statement (.sw rs2 rs1 imm) := by
  intro _
  simp [encode, Instr.row, mask_funct3]

theorem miscMem (word : Word) : Statement (.miscMem word) := by
  intro h
  have hw : fieldOpcode word = 15#7 := by simpa [Instr.wf, fieldOpcode] using h
  simp only [encode, Instr.row, mask_opcode, hw]
  rfl

theorem system (imm : Word) (rs1 : Reg) (funct3 : BitVec 3) (rd : Reg) : Statement (.system imm rs1 funct3 rd) := by
  intro _
  simp [encode, Instr.row, mask_opcode]

end Sys2Proof.Laws.RowBits
end

