-- ==== Sys2Proof/Tests/Slice0.lean ====
section
/-!
SUPPORT. The model's own tests. Expected values come from spec/95_test_vectors.md (named V.., S..), from the examples in the rules, and
from hand assembly by 30_encoding.md. Then one witness for the hypotheses of each obligation.
-/

namespace Sys2Proof.Tests

open Sys2Proof Sys2Proof.Machine

/-! ## Helpers -/

/-- The start of a vector of 95_test_vectors.md: `MEM_SIZE = 100`, the word at the PC the only code, some registers and bytes set. -/
def vec (check : Bool) (pc : Word) (regs : List (Reg × Word)) (mem : List (Nat × Byte)) (word : Word) : State :=
  regs.foldl (fun s r => s.writeReg r.1 r.2)
    { State.reset with
      config := { Config.reference with codeBase := pc, codeLen := 4, checkMisalignedJump := check }
      pc := pc
      mem := Memory.writeLE (initMemory Config.reference mem) pc.toNat word 4 }

/-- The bytes in memory before the vectors V7. -/
def loadBytes : List (Nat × Byte) :=
  [(0x40, 0x80#8), (0x41, 0x7F#8), (0x42, 0xFF#8), (0x43, 0x01#8), (0x44, 0xAA#8)]

/-- One step answers a next state with a property. -/
def nextIs (s : State) (p : State → Bool) : Bool :=
  match step s with
  | .next t => p t
  | .fault _ => false
  | .refused _ => false

theorem next_of_nextIs {s : State} {p : State → Bool} (h : nextIs s p = true) : ∃ t, step s = .next t ∧ p t = true := by
  unfold nextIs at h
  split at h
  · exact ⟨_, by assumption, h⟩
  · cases h
  · cases h

def goesOn (t : State) (pc : Word) : Bool :=
  t.pc == pc && t.run == .running && t.cause == .none

def haltsWith (t : State) (pc : Word) (cause : HaltCause) (info : Word) : Bool :=
  t.pc == pc && t.run == .halted && t.cause == cause && t.info == info

def regIs (t : State) (r : Reg) (v : Word) : Bool :=
  t.readReg r == v

def bytesAre (t : State) (a : Nat) (bs : List Byte) : Bool :=
  (List.range bs.length).all fun k => Memory.read t.mem (a + k) == bs.getD k 0#8

/-! ## WellFormed refuses an ill-formed term at each check (30_encoding.md R92 to R97, 43_misc_mem_system.md R210) -/

theorem test_wf_imm12_above_2047 :
    (Instr.addi 1#5 2#5 2048#32).wf = false ∧
    (Instr.slti 1#5 2#5 2048#32).wf = false ∧
    (Instr.sltiu 1#5 2#5 2048#32).wf = false ∧
    (Instr.xori 1#5 2#5 2048#32).wf = false ∧
    (Instr.ori 1#5 2#5 2048#32).wf = false ∧
    (Instr.andi 1#5 2#5 2048#32).wf = false ∧
    (Instr.jalr 1#5 2#5 2048#32).wf = false ∧
    (Instr.lb 1#5 2#5 2048#32).wf = false ∧
    (Instr.lh 1#5 2#5 2048#32).wf = false ∧
    (Instr.lw 1#5 2#5 2048#32).wf = false ∧
    (Instr.lbu 1#5 2#5 2048#32).wf = false ∧
    (Instr.lhu 1#5 2#5 2048#32).wf = false ∧
    (Instr.sb 1#5 2#5 2048#32).wf = false ∧
    (Instr.sh 1#5 2#5 2048#32).wf = false ∧
    (Instr.sw 1#5 2#5 2048#32).wf = false ∧
    (Instr.system 2048#32 0#5 0#3 0#5).wf = false := by
  decide

theorem test_wf_imm12_below_minus_2048 :
    (Instr.addi 1#5 2#5 0xFFFFF7FF#32).wf = false ∧
    (Instr.slti 1#5 2#5 0xFFFFF7FF#32).wf = false ∧
    (Instr.sltiu 1#5 2#5 0xFFFFF7FF#32).wf = false ∧
    (Instr.xori 1#5 2#5 0xFFFFF7FF#32).wf = false ∧
    (Instr.ori 1#5 2#5 0xFFFFF7FF#32).wf = false ∧
    (Instr.andi 1#5 2#5 0xFFFFF7FF#32).wf = false ∧
    (Instr.jalr 1#5 2#5 0xFFFFF7FF#32).wf = false ∧
    (Instr.lb 1#5 2#5 0xFFFFF7FF#32).wf = false ∧
    (Instr.lh 1#5 2#5 0xFFFFF7FF#32).wf = false ∧
    (Instr.lw 1#5 2#5 0xFFFFF7FF#32).wf = false ∧
    (Instr.lbu 1#5 2#5 0xFFFFF7FF#32).wf = false ∧
    (Instr.lhu 1#5 2#5 0xFFFFF7FF#32).wf = false ∧
    (Instr.sb 1#5 2#5 0xFFFFF7FF#32).wf = false ∧
    (Instr.sh 1#5 2#5 0xFFFFF7FF#32).wf = false ∧
    (Instr.sw 1#5 2#5 0xFFFFF7FF#32).wf = false ∧
    (Instr.system 0xFFFFF7FF#32 0#5 0#3 0#5).wf = false := by
  decide

theorem test_wf_branch_range_and_parity :
    (Instr.beq 1#5 2#5 4096#32).wf = false ∧
    (Instr.beq 1#5 2#5 0xFFFFEFFE#32).wf = false ∧
    (Instr.beq 1#5 2#5 5#32).wf = false ∧
    (Instr.bne 1#5 2#5 4096#32).wf = false ∧
    (Instr.bne 1#5 2#5 0xFFFFEFFE#32).wf = false ∧
    (Instr.bne 1#5 2#5 5#32).wf = false ∧
    (Instr.blt 1#5 2#5 4096#32).wf = false ∧
    (Instr.blt 1#5 2#5 0xFFFFEFFE#32).wf = false ∧
    (Instr.blt 1#5 2#5 5#32).wf = false ∧
    (Instr.bge 1#5 2#5 4096#32).wf = false ∧
    (Instr.bge 1#5 2#5 0xFFFFEFFE#32).wf = false ∧
    (Instr.bge 1#5 2#5 5#32).wf = false ∧
    (Instr.bltu 1#5 2#5 4096#32).wf = false ∧
    (Instr.bltu 1#5 2#5 0xFFFFEFFE#32).wf = false ∧
    (Instr.bltu 1#5 2#5 5#32).wf = false ∧
    (Instr.bgeu 1#5 2#5 4096#32).wf = false ∧
    (Instr.bgeu 1#5 2#5 0xFFFFEFFE#32).wf = false ∧
    (Instr.bgeu 1#5 2#5 5#32).wf = false := by
  decide

theorem test_wf_jal_range_and_parity :
    (Instr.jal 1#5 1048576#32).wf = false ∧
    (Instr.jal 1#5 0xFFEFFFFE#32).wf = false ∧
    (Instr.jal 1#5 7#32).wf = false := by
  decide

theorem test_wf_upper_low_bits :
    (Instr.lui 1#5 0x12345001#32).wf = false ∧
    (Instr.auipc 1#5 0x12345001#32).wf = false := by
  decide

theorem test_wf_miscMem_other_opcode : (Instr.miscMem 0x00000013#32).wf = false := by
  decide

theorem test_wf_records :
    (Record.i 2048#32 0#5 0#3 0#5 0x13#7).wf = false ∧ (Record.s 2048#32 0#5 0#5 0#3 0x23#7).wf = false ∧
    (Record.b 1#32 0#5 0#5 0#3 0x63#7).wf = false ∧ (Record.u 1#32 0#5 0x37#7).wf = false ∧ (Record.j 1#32 0#5 0x6F#7).wf = false := by
  decide

/-! ## Decode and encode: words written out from the encodings of the spec -/

theorem test_decode_opImm :
    decode 0x00108113#32 = .ok (.addi 2#5 1#5 1#32) ∧
    decode 0x8000A113#32 = .ok (.slti 2#5 1#5 0xFFFFF800#32) ∧
    decode 0xFFF0B113#32 = .ok (.sltiu 2#5 1#5 0xFFFFFFFF#32) ∧
    decode 0x7FF0C113#32 = .ok (.xori 2#5 1#5 0x7FF#32) ∧
    decode 0x7FF0E113#32 = .ok (.ori 2#5 1#5 0x7FF#32) ∧
    decode 0x0F00F113#32 = .ok (.andi 2#5 1#5 0xF0#32) ∧
    decode 0x01F09113#32 = .ok (.slli 2#5 1#5 31#5) ∧
    decode 0x00215093#32 = .ok (.srli 1#5 2#5 2#5) ∧
    decode 0x41F55293#32 = .ok (.srai 5#5 10#5 31#5) := by
  decide

theorem test_encode_opImm :
    encode (.addi 2#5 1#5 1#32) = 0x00108113#32 ∧
    encode (.slti 2#5 1#5 0xFFFFF800#32) = 0x8000A113#32 ∧
    encode (.sltiu 2#5 1#5 0xFFFFFFFF#32) = 0xFFF0B113#32 ∧
    encode (.xori 2#5 1#5 0x7FF#32) = 0x7FF0C113#32 ∧
    encode (.ori 2#5 1#5 0x7FF#32) = 0x7FF0E113#32 ∧
    encode (.andi 2#5 1#5 0xF0#32) = 0x0F00F113#32 ∧
    encode (.slli 2#5 1#5 31#5) = 0x01F09113#32 ∧
    encode (.srli 1#5 2#5 2#5) = 0x00215093#32 ∧
    encode (.srai 5#5 10#5 31#5) = 0x41F55293#32 := by
  decide

theorem test_decode_op :
    decode 0x002081B3#32 = .ok (.add 3#5 1#5 2#5) ∧
    decode 0x403100B3#32 = .ok (.sub 1#5 2#5 3#5) ∧
    decode 0x002091B3#32 = .ok (.sll 3#5 1#5 2#5) ∧
    decode 0x0020A1B3#32 = .ok (.slt 3#5 1#5 2#5) ∧
    decode 0x0020B1B3#32 = .ok (.sltu 3#5 1#5 2#5) ∧
    decode 0x0020C1B3#32 = .ok (.xor 3#5 1#5 2#5) ∧
    decode 0x0020D1B3#32 = .ok (.srl 3#5 1#5 2#5) ∧
    decode 0x41FFDFB3#32 = .ok (.sra 31#5 31#5 31#5) ∧
    decode 0x0020E1B3#32 = .ok (.or 3#5 1#5 2#5) ∧
    decode 0x0020F1B3#32 = .ok (.and 3#5 1#5 2#5) := by
  decide

theorem test_encode_op :
    encode (.add 3#5 1#5 2#5) = 0x002081B3#32 ∧
    encode (.sub 1#5 2#5 3#5) = 0x403100B3#32 ∧
    encode (.sll 3#5 1#5 2#5) = 0x002091B3#32 ∧
    encode (.slt 3#5 1#5 2#5) = 0x0020A1B3#32 ∧
    encode (.sltu 3#5 1#5 2#5) = 0x0020B1B3#32 ∧
    encode (.xor 3#5 1#5 2#5) = 0x0020C1B3#32 ∧
    encode (.srl 3#5 1#5 2#5) = 0x0020D1B3#32 ∧
    encode (.sra 31#5 31#5 31#5) = 0x41FFDFB3#32 ∧
    encode (.or 3#5 1#5 2#5) = 0x0020E1B3#32 ∧
    encode (.and 3#5 1#5 2#5) = 0x0020F1B3#32 := by
  decide

theorem test_decode_upper :
    decode 0x123452B7#32 = .ok (.lui 5#5 0x12345000#32) ∧
    decode 0xFFFFF2B7#32 = .ok (.lui 5#5 0xFFFFF000#32) ∧
    decode 0x00001097#32 = .ok (.auipc 1#5 0x1000#32) := by
  decide

theorem test_encode_upper :
    encode (.lui 5#5 0x12345000#32) = 0x123452B7#32 ∧
    encode (.lui 5#5 0xFFFFF000#32) = 0xFFFFF2B7#32 ∧
    encode (.auipc 1#5 0x1000#32) = 0x00001097#32 := by
  decide

theorem test_decode_jump :
    decode 0x0100056F#32 = .ok (.jal 10#5 16#32) ∧
    decode 0x800000EF#32 = .ok (.jal 1#5 0xFFF00000#32) ∧
    decode 0x7FFFF0EF#32 = .ok (.jal 1#5 0x000FFFFE#32) ∧
    decode 0x0010006F#32 = .ok (.jal 0#5 2048#32) ∧
    decode 0x00A58567#32 = .ok (.jalr 10#5 11#5 10#32) := by
  decide

theorem test_encode_jump :
    encode (.jal 10#5 16#32) = 0x0100056F#32 ∧
    encode (.jal 1#5 0xFFF00000#32) = 0x800000EF#32 ∧
    encode (.jal 1#5 0x000FFFFE#32) = 0x7FFFF0EF#32 ∧
    encode (.jal 0#5 2048#32) = 0x0010006F#32 ∧
    encode (.jalr 10#5 11#5 10#32) = 0x00A58567#32 := by
  decide

theorem test_decode_branch :
    decode 0x00308563#32 = .ok (.beq 1#5 3#5 10#32) ∧
    decode 0x80208063#32 = .ok (.beq 1#5 2#5 0xFFFFF000#32) ∧
    decode 0xFE209EE3#32 = .ok (.bne 1#5 2#5 0xFFFFFFFC#32) ∧
    decode 0x0020C463#32 = .ok (.blt 1#5 2#5 8#32) ∧
    decode 0x0020D463#32 = .ok (.bge 1#5 2#5 8#32) ∧
    decode 0x0020E463#32 = .ok (.bltu 1#5 2#5 8#32) ∧
    decode 0x7E20FFE3#32 = .ok (.bgeu 1#5 2#5 0xFFE#32) := by
  decide

theorem test_encode_branch :
    encode (.beq 1#5 3#5 10#32) = 0x00308563#32 ∧
    encode (.beq 1#5 2#5 0xFFFFF000#32) = 0x80208063#32 ∧
    encode (.bne 1#5 2#5 0xFFFFFFFC#32) = 0xFE209EE3#32 ∧
    encode (.blt 1#5 2#5 8#32) = 0x0020C463#32 ∧
    encode (.bge 1#5 2#5 8#32) = 0x0020D463#32 ∧
    encode (.bltu 1#5 2#5 8#32) = 0x0020E463#32 ∧
    encode (.bgeu 1#5 2#5 0xFFE#32) = 0x7E20FFE3#32 := by
  decide

theorem test_decode_load :
    decode 0x00008283#32 = .ok (.lb 5#5 1#5 0#32) ∧
    decode 0x00109283#32 = .ok (.lh 5#5 1#5 1#32) ∧
    decode 0xFFC0A283#32 = .ok (.lw 5#5 1#5 0xFFFFFFFC#32) ∧
    decode 0x0020C283#32 = .ok (.lbu 5#5 1#5 2#32) ∧
    decode 0x0020D283#32 = .ok (.lhu 5#5 1#5 2#32) := by
  decide

theorem test_encode_load :
    encode (.lb 5#5 1#5 0#32) = 0x00008283#32 ∧
    encode (.lh 5#5 1#5 1#32) = 0x00109283#32 ∧
    encode (.lw 5#5 1#5 0xFFFFFFFC#32) = 0xFFC0A283#32 ∧
    encode (.lbu 5#5 1#5 2#32) = 0x0020C283#32 ∧
    encode (.lhu 5#5 1#5 2#32) = 0x0020D283#32 := by
  decide

theorem test_decode_store :
    decode 0x00208023#32 = .ok (.sb 2#5 1#5 0#32) ∧
    decode 0xFE209FA3#32 = .ok (.sh 2#5 1#5 0xFFFFFFFF#32) ∧
    decode 0x8020A023#32 = .ok (.sw 2#5 1#5 0xFFFFF800#32) ∧
    decode 0x7E002FA3#32 = .ok (.sw 0#5 0#5 0x7FF#32) := by
  decide

theorem test_encode_store :
    encode (.sb 2#5 1#5 0#32) = 0x00208023#32 ∧
    encode (.sh 2#5 1#5 0xFFFFFFFF#32) = 0xFE209FA3#32 ∧
    encode (.sw 2#5 1#5 0xFFFFF800#32) = 0x8020A023#32 ∧
    encode (.sw 0#5 0#5 0x7FF#32) = 0x7E002FA3#32 := by
  decide

theorem test_decode_groups :
    decode 0x0330000F#32 = .ok (.miscMem 0x0330000F#32) ∧
    decode 0x0000100F#32 = .ok (.miscMem 0x0000100F#32) ∧
    decode 0x00000073#32 = .ok (.system 0#32 0#5 0#3 0#5) ∧
    decode 0x00100073#32 = .ok (.system 1#32 0#5 0#3 0#5) ∧
    decode 0xC0002573#32 = .ok (.system 0xFFFFFC00#32 0#5 2#3 10#5) := by
  decide

theorem test_encode_groups :
    encode (.miscMem 0x0330000F#32) = 0x0330000F#32 ∧
    encode (.miscMem 0x0000100F#32) = 0x0000100F#32 ∧
    encode (.system 0#32 0#5 0#3 0#5) = 0x00000073#32 ∧
    encode (.system 1#32 0#5 0#3 0#5) = 0x00100073#32 ∧
    encode (.system 0xFFFFFC00#32 0#5 2#3 10#5) = 0xC0002573#32 := by
  decide

/-- Vectors V2.16, V2.20, V3.17 to V3.19, V5.7, V6.9, V7.14, V8.8, V9.1 to V9.4, V9.10. -/
theorem test_decode_rejects :
    decode 0x02309113#32 = .error (.invalidEncoding 0x02309113#32) ∧
    decode 0x4240D113#32 = .error (.invalidEncoding 0x4240D113#32) ∧
    decode 0x022081B3#32 = .error (.invalidEncoding 0x022081B3#32) ∧
    decode 0x402091B3#32 = .error (.invalidEncoding 0x402091B3#32) ∧
    decode 0x4020F1B3#32 = .error (.invalidEncoding 0x4020F1B3#32) ∧
    decode 0x000290E7#32 = .error (.invalidEncoding 0x000290E7#32) ∧
    decode 0x0020B463#32 = .error (.invalidEncoding 0x0020B463#32) ∧
    decode 0x0000E283#32 = .error (.invalidEncoding 0x0000E283#32) ∧
    decode 0x0020C023#32 = .error (.invalidEncoding 0x0020C023#32) ∧
    decode 0x00000000#32 = .error (.unknownOpcode 0x00000000#32) ∧
    decode 0xFFFFFFFF#32 = .error (.unknownOpcode 0xFFFFFFFF#32) ∧
    decode 0x00000001#32 = .error (.unknownOpcode 0x00000001#32) ∧
    decode 0x0000000B#32 = .error (.unknownOpcode 0x0000000B#32) ∧
    decode 0x0000202F#32 = .error (.unknownOpcode 0x0000202F#32) := by
  decide

/-- The round trips of 95_test_vectors.md section 1.3. -/
theorem test_records :
    (Record.r 32#7 31#5 31#5 5#3 31#5 51#7).encode = 0x41FFDFB3#32 ∧ decodeRecord 0x41FFDFB3#32 = .ok (.r 32#7 31#5 31#5 5#3 31#5 51#7) ∧
    (Record.i 0xFFFFFFFF#32 1#5 0#3 2#5 19#7).encode = 0xFFF08113#32 ∧ decodeRecord 0xFFF08113#32 = .ok (.i 0xFFFFFFFF#32 1#5 0#3 2#5 19#7) ∧
    (Record.i 0x41F#32 10#5 5#3 5#5 19#7).encode = 0x41F55293#32 ∧ decodeRecord 0x41F55293#32 = .ok (.i 0x41F#32 10#5 5#3 5#5 19#7) ∧
    (Record.s 0xFFFFF800#32 2#5 1#5 2#3 35#7).encode = 0x8020A023#32 ∧ decodeRecord 0x8020A023#32 = .ok (.s 0xFFFFF800#32 2#5 1#5 2#3 35#7) ∧
    (Record.b 0xFFFFF000#32 2#5 1#5 0#3 99#7).encode = 0x80208063#32 ∧ decodeRecord 0x80208063#32 = .ok (.b 0xFFFFF000#32 2#5 1#5 0#3 99#7) ∧
    (Record.b 0xFFE#32 2#5 1#5 7#3 99#7).encode = 0x7E20FFE3#32 ∧ decodeRecord 0x7E20FFE3#32 = .ok (.b 0xFFE#32 2#5 1#5 7#3 99#7) ∧
    (Record.u 0xFFFFF000#32 5#5 55#7).encode = 0xFFFFF2B7#32 ∧ decodeRecord 0xFFFFF2B7#32 = .ok (.u 0xFFFFF000#32 5#5 55#7) ∧
    (Record.j 0xFFF00000#32 1#5 111#7).encode = 0x800000EF#32 ∧ decodeRecord 0x800000EF#32 = .ok (.j 0xFFF00000#32 1#5 111#7) ∧
    (Record.j 0x000FFFFE#32 1#5 111#7).encode = 0x7FFFF0EF#32 ∧ decodeRecord 0x7FFFF0EF#32 = .ok (.j 0x000FFFFE#32 1#5 111#7) := by
  decide

theorem test_decodeBytes :
    decodeBytes [0x93#8, 0x00#8, 0x21#8, 0x00#8, 0xAA#8] = some (.addi 1#5 2#5 2#32, [0xAA#8]) ∧ decodeBytes [0x93#8, 0x00#8] = none := by
  decide

theorem test_decodeTableWord : decodeTableWord 32 0x403100B3 = some (.sub 1#5 2#5 3#5) ∧ decodeTableWord 32 0 = none := by
  decide

/-- 30_encoding.md R100: the table, and a second registration of an opcode. -/
theorem test_register :
    registerBaseIset = .ok baseTable ∧ baseTable.length = 11 ∧ registerOpcode baseTable 0x13#7 .i = .error .duplicateRegistration := by
  decide

/-- 00_scope.md R11, R12; vectors I4.a, I6.a. -/
theorem test_bits :
    extract 0x12345678#32 4 11 = some 0x67#32 ∧ extract 0xFFFFFFFF#32 0 31 = some 0xFFFFFFFF#32 ∧ extract 1#32 3 2 = none ∧
    extract 1#32 0 32 = none ∧ sext 0x7F#32 7 = 0x7F#32 ∧ sext 0x80#32 7 = 0xFFFFFF80#32 ∧ asUnsigned (-1) = 0xFFFFFFFF#32 ∧
    asSigned 0xFFFFFFFF#32 = -1 ∧ asSigned 0x7FFFFFFF#32 = 2147483647 ∧ asSigned 0x80000000#32 = -2147483648 := by
  decide

/-! ## One step, from the vectors -/

/-- V2.1. -/
theorem test_addi_wraps :
    nextIs (vec false 0x0#32 [(1#5, 0x7fffffff#32)] [] 0x00108113#32) (fun t => regIs t 2#5 0x80000000#32 && goesOn t 0x4#32) = true := by
  decide

/-- V2.4. -/
theorem test_addi_same_register :
    nextIs (vec false 0x0#32 [(1#5, 0x5#32)] [] 0xFFB08093#32) (fun t => regIs t 1#5 0x0#32 && goesOn t 0x4#32) = true := by
  decide

/-- V2.6. -/
theorem test_slti_signed :
    nextIs (vec false 0x0#32 [(1#5, 0x80000000#32)] [] 0x8000A113#32) (fun t => regIs t 2#5 0x1#32 && goesOn t 0x4#32) = true := by
  decide

/-- V2.7. -/
theorem test_slti_negative_immediate :
    nextIs (vec false 0x0#32 [(1#5, 0x7fffffff#32)] [] 0xFFF0A113#32) (fun t => regIs t 2#5 0x0#32 && goesOn t 0x4#32) = true := by
  decide

/-- V2.8. -/
theorem test_sltiu_immediate_is_extended :
    nextIs (vec false 0x0#32 [(1#5, 0x7fffffff#32)] [] 0xFFF0B113#32) (fun t => regIs t 2#5 0x1#32 && goesOn t 0x4#32) = true := by
  decide

/-- V2.9. -/
theorem test_sltiu_equal :
    nextIs (vec false 0x0#32 [(1#5, 0xffffffff#32)] [] 0xFFF0B113#32) (fun t => regIs t 2#5 0x0#32 && goesOn t 0x4#32) = true := by
  decide

/-- V2.11. -/
theorem test_xori :
    nextIs (vec false 0x0#32 [(1#5, 0x12345678#32)] [] 0x7FF0C113#32) (fun t => regIs t 2#5 0x12345187#32 && goesOn t 0x4#32) = true := by
  decide

/-- R134. -/
theorem test_xori_not :
    nextIs (vec false 0x0#32 [(1#5, 0xf0f0f0f#32)] [] 0xFFF0C113#32) (fun t => regIs t 2#5 0xf0f0f0f0#32 && goesOn t 0x4#32) = true := by
  decide

/-- V2.12. -/
theorem test_ori_extends :
    nextIs (vec false 0x0#32 [(1#5, 0x0#32)] [] 0xFFF0E113#32) (fun t => regIs t 2#5 0xffffffff#32 && goesOn t 0x4#32) = true := by
  decide

/-- R135. -/
theorem test_ori :
    nextIs (vec false 0x0#32 [(1#5, 0x12340000#32)] [] 0x7FF0E113#32) (fun t => regIs t 2#5 0x123407ff#32 && goesOn t 0x4#32) = true := by
  decide

/-- V2.13. -/
theorem test_andi :
    nextIs (vec false 0x0#32 [(1#5, 0xffffffff#32)] [] 0x0F00F113#32) (fun t => regIs t 2#5 0xf0#32 && goesOn t 0x4#32) = true := by
  decide

/-- R136. -/
theorem test_andi_extends :
    nextIs (vec false 0x0#32 [(1#5, 0x12345678#32)] [] 0x8000F113#32) (fun t => regIs t 2#5 0x12345000#32 && goesOn t 0x4#32) = true := by
  decide

/-- V2.15. -/
theorem test_slli :
    nextIs (vec false 0x0#32 [(1#5, 0x12345678#32)] [] 0x00409113#32) (fun t => regIs t 2#5 0x23456780#32 && goesOn t 0x4#32) = true := by
  decide

/-- V2.16. -/
theorem test_slli_bad_funct7 :
    nextIs (vec false 0x0#32 [(1#5, 0x1#32), (2#5, 0x7#32)] [] 0x02309113#32) (fun t => regIs t 2#5 0x7#32 && haltsWith t 0x0#32 .invalidEncoding 0x2309113#32) = true := by
  decide

/-- V2.17. -/
theorem test_srli :
    nextIs (vec false 0x0#32 [(1#5, 0xf0000000#32)] [] 0x0040D113#32) (fun t => regIs t 2#5 0xf000000#32 && goesOn t 0x4#32) = true := by
  decide

/-- S2. -/
theorem test_srli_scenario :
    nextIs (vec false 0x0#32 [(2#5, 0xffffffe0#32)] [] 0x00215093#32) (fun t => regIs t 1#5 0x3ffffff8#32 && goesOn t 0x4#32) = true := by
  decide

/-- V2.18. -/
theorem test_srai_negative :
    nextIs (vec false 0x0#32 [(1#5, 0xf0000000#32)] [] 0x4040D113#32) (fun t => regIs t 2#5 0xff000000#32 && goesOn t 0x4#32) = true := by
  decide

/-- V2.19. -/
theorem test_srai_positive :
    nextIs (vec false 0x0#32 [(1#5, 0x70000000#32)] [] 0x4040D113#32) (fun t => regIs t 2#5 0x7000000#32 && goesOn t 0x4#32) = true := by
  decide

/-- V3.1. -/
theorem test_add_wraps :
    nextIs (vec false 0x0#32 [(1#5, 0xffffffff#32), (2#5, 0x1#32)] [] 0x002081B3#32) (fun t => regIs t 3#5 0x0#32 && goesOn t 0x4#32) = true := by
  decide

/-- V3.2. -/
theorem test_add_same_register :
    nextIs (vec false 0x0#32 [(5#5, 0x40000000#32)] [] 0x005282B3#32) (fun t => regIs t 5#5 0x80000000#32 && goesOn t 0x4#32) = true := by
  decide

/-- V3.3. -/
theorem test_sub_operand_order :
    nextIs (vec false 0x0#32 [(1#5, 0x0#32), (2#5, 0x80000000#32)] [] 0x402081B3#32) (fun t => regIs t 3#5 0x80000000#32 && goesOn t 0x4#32) = true := by
  decide

/-- S5. -/
theorem test_sub_wraps :
    nextIs (vec false 0x0#32 [(2#5, 0x2#32), (3#5, 0x3#32)] [] 0x403100B3#32) (fun t => regIs t 1#5 0xffffffff#32 && goesOn t 0x4#32) = true := by
  decide

/-- V3.5. -/
theorem test_sll :
    nextIs (vec false 0x0#32 [(1#5, 0x1#32), (2#5, 0x1f#32)] [] 0x002091B3#32) (fun t => regIs t 3#5 0x80000000#32 && goesOn t 0x4#32) = true := by
  decide

/-- V3.6. -/
theorem test_sll_by_32 :
    nextIs (vec false 0x0#32 [(1#5, 0x1#32), (2#5, 0x20#32)] [] 0x002091B3#32) (fun t => regIs t 3#5 0x1#32 && goesOn t 0x4#32) = true := by
  decide

/-- V3.7. -/
theorem test_slt_negative :
    nextIs (vec false 0x0#32 [(1#5, 0xffffffff#32), (2#5, 0x0#32)] [] 0x0020A1B3#32) (fun t => regIs t 3#5 0x1#32 && goesOn t 0x4#32) = true := by
  decide

/-- V3.8. -/
theorem test_slt_sign_edge :
    nextIs (vec false 0x0#32 [(1#5, 0x7fffffff#32), (2#5, 0x80000000#32)] [] 0x0020A1B3#32) (fun t => regIs t 3#5 0x0#32 && goesOn t 0x4#32) = true := by
  decide

/-- V3.9. -/
theorem test_sltu_large :
    nextIs (vec false 0x0#32 [(1#5, 0xffffffff#32), (2#5, 0x0#32)] [] 0x0020B1B3#32) (fun t => regIs t 3#5 0x0#32 && goesOn t 0x4#32) = true := by
  decide

/-- V3.10. -/
theorem test_sltu_x0 :
    nextIs (vec false 0x0#32 [(2#5, 0x9#32)] [] 0x002031B3#32) (fun t => regIs t 3#5 0x1#32 && goesOn t 0x4#32) = true := by
  decide

/-- V3.11. -/
theorem test_xor :
    nextIs (vec false 0x0#32 [(1#5, 0xaaaaaaaa#32), (2#5, 0xffffffff#32)] [] 0x0020C1B3#32) (fun t => regIs t 3#5 0x55555555#32 && goesOn t 0x4#32) = true := by
  decide

/-- V3.12. -/
theorem test_srl_low_five_bits :
    nextIs (vec false 0x0#32 [(1#5, 0x80000001#32), (2#5, 0xffffffe1#32)] [] 0x0020D1B3#32) (fun t => regIs t 3#5 0x40000000#32 && goesOn t 0x4#32) = true := by
  decide

/-- R147. -/
theorem test_srl_by_31 :
    nextIs (vec false 0x0#32 [(1#5, 0x80000000#32), (2#5, 0xffffffff#32)] [] 0x0020D1B3#32) (fun t => regIs t 3#5 0x1#32 && goesOn t 0x4#32) = true := by
  decide

/-- V3.13. -/
theorem test_sra_low_five_bits :
    nextIs (vec false 0x0#32 [(1#5, 0x80000001#32), (2#5, 0xffffffe1#32)] [] 0x4020D1B3#32) (fun t => regIs t 3#5 0xc0000000#32 && goesOn t 0x4#32) = true := by
  decide

/-- V3.14. -/
theorem test_sra_by_32 :
    nextIs (vec false 0x0#32 [(1#5, 0x80000000#32), (2#5, 0x20#32)] [] 0x4020D1B3#32) (fun t => regIs t 3#5 0x80000000#32 && goesOn t 0x4#32) = true := by
  decide

/-- R149. -/
theorem test_or :
    nextIs (vec false 0x0#32 [(1#5, 0xff00ff00#32), (2#5, 0xff00ff0#32)] [] 0x0020E1B3#32) (fun t => regIs t 3#5 0xfff0fff0#32 && goesOn t 0x4#32) = true := by
  decide

/-- R150. -/
theorem test_and :
    nextIs (vec false 0x0#32 [(1#5, 0xff00ff00#32), (2#5, 0xff00ff0#32)] [] 0x0020F1B3#32) (fun t => regIs t 3#5 0xf000f00#32 && goesOn t 0x4#32) = true := by
  decide

/-- V4.1. -/
theorem test_lui :
    nextIs (vec false 0x0#32 [] [] 0x800002B7#32) (fun t => regIs t 5#5 0x80000000#32 && goesOn t 0x4#32) = true := by
  decide

/-- V4.3. -/
theorem test_lui_x0 :
    nextIs (vec false 0x0#32 [(5#5, 0x3#32)] [] 0x12345037#32) (fun t => regIs t 0#5 0x0#32 && goesOn t 0x4#32) = true := by
  decide

/-- V4.5. -/
theorem test_auipc_wraps :
    nextIs (vec false 0x10#32 [] [] 0xFFFFF297#32) (fun t => regIs t 5#5 0xfffff010#32 && goesOn t 0x14#32) = true := by
  decide

/-- S4. -/
theorem test_auipc_unaligned_pc :
    nextIs (vec false 0x4#32 [] [] 0x00001097#32) (fun t => regIs t 1#5 0x1004#32 && goesOn t 0x8#32) = true := by
  decide

/-- V5.1. -/
theorem test_jal_backwards :
    nextIs (vec false 0x10#32 [] [] 0xFF1FF0EF#32) (fun t => regIs t 1#5 0x14#32 && goesOn t 0x0#32) = true := by
  decide

/-- V5.8. -/
theorem test_jal_misaligned :
    nextIs (vec true 0x11#32 [] [] 0x004000EF#32) (fun t => regIs t 1#5 0x0#32 && haltsWith t 0x11#32 .misalignedJump 0x15#32) = true := by
  decide

/-- V5.5. -/
theorem test_jalr_same_register :
    nextIs (vec false 0x10#32 [(5#5, 0x31#32)] [] 0xFFF282E7#32) (fun t => regIs t 5#5 0x14#32 && goesOn t 0x30#32) = true := by
  decide

/-- S7. -/
theorem test_jalr_clears_bit0 :
    nextIs (vec false 0x5#32 [(11#5, 0xf#32)] [] 0x00A58567#32) (fun t => regIs t 10#5 0x9#32 && goesOn t 0x18#32) = true := by
  decide

/-- V6.1. -/
theorem test_beq_taken :
    nextIs (vec false 0x20#32 [(1#5, 0x3#32), (2#5, 0x3#32)] [] 0xFE2080E3#32) (fun t => goesOn t 0x0#32) = true := by
  decide

/-- V6.10. -/
theorem test_beq_misaligned :
    nextIs (vec true 0x21#32 [(1#5, 0x1#32), (2#5, 0x1#32)] [] 0x00208463#32) (fun t => haltsWith t 0x21#32 .misalignedJump 0x29#32) = true := by
  decide

/-- V6.3. -/
theorem test_bne_taken_far :
    nextIs (vec false 0x20#32 [(1#5, 0x3#32), (2#5, 0x4#32)] [] 0x7E209FE3#32) (fun t => goesOn t 0x101e#32) = true := by
  decide

/-- I7.a. -/
theorem test_bne_equal :
    nextIs (vec false 0x20#32 [(1#5, 0x7#32), (2#5, 0x7#32)] [] 0x00209463#32) (fun t => goesOn t 0x24#32) = true := by
  decide

/-- V6.4. -/
theorem test_blt_signed :
    nextIs (vec false 0x20#32 [(1#5, 0x80000000#32), (2#5, 0x7fffffff#32)] [] 0x0020C463#32) (fun t => goesOn t 0x28#32) = true := by
  decide

/-- V6.6. -/
theorem test_bge_signed :
    nextIs (vec false 0x20#32 [(1#5, 0x80000000#32), (2#5, 0x7fffffff#32)] [] 0x0020D463#32) (fun t => goesOn t 0x24#32) = true := by
  decide

/-- V6.8. -/
theorem test_bge_equal_wraps :
    nextIs (vec false 0x20#32 [(1#5, 0x2#32)] [] 0x8010D063#32) (fun t => goesOn t 0xfffff020#32) = true := by
  decide

/-- V6.5. -/
theorem test_bltu_unsigned :
    nextIs (vec false 0x20#32 [(1#5, 0x80000000#32), (2#5, 0x7fffffff#32)] [] 0x0020E463#32) (fun t => goesOn t 0x24#32) = true := by
  decide

/-- V6.7. -/
theorem test_bgeu_unsigned :
    nextIs (vec false 0x20#32 [(1#5, 0x80000000#32), (2#5, 0x7fffffff#32)] [] 0x0020F463#32) (fun t => goesOn t 0x28#32) = true := by
  decide

/-- V7.11, with the code at 0x20. -/
theorem test_lb_address_wraps :
    nextIs (vec false 0x20#32 [(1#5, 0xffffffff#32)] [(0, 0x93#8)] 0x00108283#32) (fun t => regIs t 5#5 0xffffff93#32 && goesOn t 0x24#32) = true := by
  decide

/-- V7.13. -/
theorem test_lb_x0_out_of_range :
    nextIs (vec false 0x0#32 [(1#5, 0x64#32)] [] 0x00008003#32) (fun t => haltsWith t 0x0#32 .outOfRangeMemory 0x64#32) = true := by
  decide

/-- V7.3. -/
theorem test_lh_extends :
    nextIs (vec false 0x0#32 [(1#5, 0x40#32)] loadBytes 0x00309283#32) (fun t => regIs t 5#5 0xffffaa01#32 && goesOn t 0x4#32) = true := by
  decide

/-- V7.7. -/
theorem test_lw_same_register :
    nextIs (vec false 0x0#32 [(1#5, 0x40#32)] loadBytes 0x0010A083#32) (fun t => regIs t 1#5 0xaa01ff7f#32 && goesOn t 0x4#32) = true := by
  decide

/-- V7.9. -/
theorem test_lw_last_byte_out :
    nextIs (vec false 0x0#32 [(1#5, 0x61#32), (5#5, 0x9#32)] [] 0x0000A283#32) (fun t => regIs t 5#5 0x9#32 && haltsWith t 0x0#32 .outOfRangeMemory 0x61#32) = true := by
  decide

/-- V7.2. -/
theorem test_lbu :
    nextIs (vec false 0x0#32 [(1#5, 0x40#32)] loadBytes 0x0020C283#32) (fun t => regIs t 5#5 0xff#32 && goesOn t 0x4#32) = true := by
  decide

/-- V7.10. -/
theorem test_lbu_last_byte :
    nextIs (vec false 0x0#32 [(1#5, 0x63#32)] [] 0x0000C283#32) (fun t => regIs t 5#5 0x0#32 && goesOn t 0x4#32) = true := by
  decide

/-- V7.4. -/
theorem test_lhu :
    nextIs (vec false 0x0#32 [(1#5, 0x40#32)] loadBytes 0x0010D283#32) (fun t => regIs t 5#5 0xff7f#32 && goesOn t 0x4#32) = true := by
  decide

/-- V8.1. -/
theorem test_sb :
    nextIs (vec false 0x0#32 [(1#5, 0x40#32), (2#5, 0xa1b2c3d4#32)] [] 0x00208023#32) (fun t => bytesAre t 0x40 [0xd4#8, 0x00#8, 0x00#8, 0x00#8] && goesOn t 0x4#32) = true := by
  decide

/-- V8.2. -/
theorem test_sh_unaligned :
    nextIs (vec false 0x0#32 [(1#5, 0x40#32), (2#5, 0xa1b2c3d4#32)] [] 0x002090A3#32) (fun t => bytesAre t 0x40 [0x00#8, 0xd4#8, 0xc3#8, 0x00#8] && goesOn t 0x4#32) = true := by
  decide

/-- V8.6. -/
theorem test_sh_last_bytes :
    nextIs (vec false 0x0#32 [(1#5, 0x62#32), (2#5, 0xa1b2c3d4#32)] [] 0x00209023#32) (fun t => bytesAre t 0x60 [0x00#8, 0x00#8, 0xd4#8, 0xc3#8] && goesOn t 0x4#32) = true := by
  decide

/-- V8.4. -/
theorem test_sw_unaligned :
    nextIs (vec false 0x0#32 [(1#5, 0x44#32), (2#5, 0xa1b2c3d4#32)] [] 0xFE20AEA3#32) (fun t => bytesAre t 0x40 [0x00#8, 0xd4#8, 0xc3#8, 0xb2#8, 0xa1#8] && goesOn t 0x4#32) = true := by
  decide

/-- V8.7. -/
theorem test_sw_out_of_range_writes_nothing :
    nextIs (vec false 0x0#32 [(1#5, 0x62#32), (2#5, 0xa1b2c3d4#32)] [] 0x0020A023#32) (fun t => bytesAre t 0x60 [0x00#8, 0x00#8, 0x00#8, 0x00#8] && haltsWith t 0x0#32 .outOfRangeMemory 0x62#32) = true := by
  decide

/-- V9.5. -/
theorem test_fence :
    nextIs (vec false 0x0#32 [] [] 0x0330000F#32) (fun t => haltsWith t 0x0#32 .invalidEncoding 0x330000f#32) = true := by
  decide

/-- V9.7. -/
theorem test_ecall :
    nextIs (vec false 0x0#32 [] [] 0x00000073#32) (fun t => haltsWith t 0x0#32 .invalidEncoding 0x73#32) = true := by
  decide

/-- V9.9. -/
theorem test_csrrs :
    nextIs (vec false 0x0#32 [(10#5, 0x5#32)] [] 0xC0002573#32) (fun t => regIs t 10#5 0x5#32 && haltsWith t 0x0#32 .invalidEncoding 0xc0002573#32) = true := by
  decide

/-- V9.10. -/
theorem test_unknown_opcode :
    nextIs (vec false 0x0#32 [] [] 0x0000202F#32) (fun t => haltsWith t 0x0#32 .unknownOpcode 0x202f#32) = true := by
  decide

/-- V9.11 to V9.13: a fetch that is not wholly in the code. -/
theorem test_exhausted :
    nextIs { vec false 0#32 [] [] 0x00100093#32 with pc := 4#32 } (fun t => haltsWith t 4#32 .exhausted 0#32) = true ∧
    nextIs { vec false 0#32 [] [] 0x00100093#32 with pc := 0xFFFFFFFC#32 } (fun t => haltsWith t 0xFFFFFFFC#32 .exhausted 0#32) = true ∧
    nextIs { vec false 0#32 [] [] 0x00100093#32 with pc := 1#32 } (fun t => haltsWith t 1#32 .exhausted 0#32) = true := by
  decide

/-- I1.a: a write to x0 is discarded. -/
theorem test_x0 : nextIs (vec false 0#32 [] [] 0x00500013#32) (fun t => regIs t 0#5 0#32 && goesOn t 4#32) = true := by
  decide

/-! ## Reset, observation, causes and the placed word -/

/-- 70_reset_and_hazards.md R260 for a load of one word at 4 over a byte of `MEM_INIT`. -/
def smallLoad : Load :=
  { config := { Config.reference with codeBase := 4#32, codeLen := 4 }
    codeBytes := [0x93#8, 0x00#8, 0x10#8, 0x00#8]
    pc0 := 4#32
    memInit := [(2, 0x55#8), (5, 0x66#8), (100, 0x77#8)] }

theorem test_reset_load :
    (loadedState smallLoad).mem = [(2, 0x55#8), (4, 0x93#8), (6, 0x10#8)] ∧ (loadedState smallLoad).pc = 4#32 ∧
    nextIs (loadedState smallLoad) (fun t => regIs t 1#5 1#32 && goesOn t 8#32) = true := by
  decide

theorem test_reset_reference : resetBlock Load.reference = .next State.reset := rfl

/-- 93_implementation_defined.md U11: code above the memory. -/
theorem test_reset_refused :
    resetBlock { smallLoad with config := { smallLoad.config with codeBase := 97#32 } } = .refused .badConfiguration := rfl

theorem test_halted_has_no_step : step { State.reset with run := .halted, cause := .exhausted } = .refused .notRunning := rfl

theorem test_observe :
    (observe State.reset).xs.length = 31 ∧ (observe State.reset).bytes.length = 100 ∧ (observe (loadedState smallLoad)).bytes.getD 4 0#8 = 0x93#8 := by
  decide

/-- 60_exceptions.md R222, R225. -/
theorem test_causes :
    HaltCause.exhausted.code = 1 ∧ HaltCause.misalignedJump.code = 6 ∧ HaltCause.exhausted.exitStatus = some .zero ∧
    HaltCause.unknownOpcode.exitStatus = some .nonzero := by
  decide

theorem test_withFetchWord_from_reset :
    nextIs (State.reset.withFetchWord 32 0x123452B7) (fun t => regIs t 5#5 0x12345000#32 && goesOn t 4#32) = true ∧
    nextIs ({ State.reset with pc := 0x1000#32 }.withFetchWord 32 0x123452B7) (fun t => regIs t 5#5 0x12345000#32 && goesOn t 0x1004#32) = true := by
  decide

/-- The canonical form, and the byte order of 20_memory.md R67. -/
theorem test_memory_canonical :
    Memory.write [(5, 1#8)] 5 0#8 = [] ∧ Memory.write [(5, 1#8)] 3 2#8 = [(3, 2#8), (5, 1#8)] ∧
    Memory.writeLE [] 0x40 0x11223344#32 4 = [(0x40, 0x44#8), (0x41, 0x33#8), (0x42, 0x22#8), (0x43, 0x11#8)] := by
  decide

/-- `load_byte` and `store_byte`: 20_memory.md R64. -/
theorem test_byte_accessors :
    loadByte (vec false 0#32 [] loadBytes 0#32) 0x40#32 = .ok 0x80#32 ∧
    loadByte (vec false 0#32 [] loadBytes 0#32) 100#32 = .error (.outOfRangeMemory 100#32) ∧
    (∃ t, storeByte State.reset 99#32 0x1234#32 = .ok t ∧ t.mem = [(99, 0x34#8)]) ∧
    storeByte State.reset 100#32 1#32 = .error (.outOfRangeMemory 100#32) :=
  ⟨by decide, by decide, ⟨_, rfl, by decide⟩, by decide⟩

/-- 20_memory.md R65: a size that no access has. -/
theorem test_invalid_size : memRead State.reset 0#32 3 = .error .invalidSize ∧ memWrite State.reset 0#32 8 1#32 = .error .invalidSize := by
  decide

/-! ## Witnesses: what meets the hypotheses of each obligation, clause by clause, at the ends of the ranges -/

theorem witness_DecodeOfEncodeIsTheInstruction :
    (Instr.addi 31#5 31#5 0xFFFFF800#32).wf = true ∧ (Instr.sw 31#5 31#5 2047#32).wf = true ∧ (Instr.bgeu 1#5 2#5 4094#32).wf = true ∧
    (Instr.beq 1#5 2#5 0xFFFFF000#32).wf = true ∧ (Instr.jal 1#5 0x000FFFFE#32).wf = true ∧ (Instr.jal 1#5 0xFFF00000#32).wf = true ∧
    (Instr.lui 5#5 0xFFFFF000#32).wf = true ∧ (Instr.miscMem 0xFFFFFF8F#32).wf = true ∧ (Instr.srai 1#5 1#5 31#5).wf = true := by
  decide

theorem witness_EncodeOfDecodeIsTheWord : decode 0xFE209EE3#32 = .ok (.bne 1#5 2#5 0xFFFFFFFC#32) := by
  decide

theorem witness_RecordsRoundTrip :
    formatOf 0x33#7 = some .r ∧ (formatOf 0x13#7 = some .i ∧ imm12InRange 0xFFFFF800#32) ∧ (formatOf 0x23#7 = some .s ∧ imm12InRange 2047#32) ∧
    (formatOf 0x63#7 = some .b ∧ imm13InRange 4094#32) ∧ formatOf 0x37#7 = some .u ∧ (formatOf 0x6F#7 = some .j ∧ imm21InRange 0xFFF00000#32) := by
  decide

theorem witness_OpcodeTableIsTheElevenEntries : (0x73#7, Format.i) ∈ baseTable := by
  decide

theorem witness_DecoderRejectsExactly :
    ¬ KnownOpcode 0x00000000#32 ∧ SelectsNothing 0x022081B3#32 ∧ (KnownOpcode 0x00108113#32 ∧ ¬ SelectsNothing 0x00108113#32) := by
  decide

theorem witness_SextIsTwosComplement :
    ((7 < 32 ∧ (0xFF#32).toNat < 2 ^ (7 + 1)) ∧ ¬ (0xFF#32).toNat < 2 ^ 7) ∧ (31 < 32 ∧ (0x7FFFFFFF#32).toNat < 2 ^ (31 + 1)) := by
  decide

theorem witness_ReinterpretationRoundTrips :
    (-2 ^ 31 ≤ (-2147483648 : Int) ∧ (-2147483648 : Int) < 2 ^ 31) ∧ (-2 ^ 31 ≤ (2147483647 : Int) ∧ (2147483647 : Int) < 2 ^ 31) := by
  decide

theorem witness_RangeCheckIsPerByte : 0 < 4 ∧ Config.reference.wf ∧ inRange Config.reference 96#32 4 = true := by
  decide

theorem witness_bytesInMemory :
    BytesInMemory State.reset.config 99#32 1 ∧ BytesInMemory State.reset.config 98#32 2 ∧ BytesInMemory State.reset.config 96#32 4 ∧
    ¬ BytesInMemory State.reset.config 100#32 1 ∧ ¬ BytesInMemory State.reset.config 97#32 4 ∧ ¬ BytesInMemory State.reset.config 0xFFFFFFFF#32 2 ∧
    Memory.wf State.reset.mem := by
  unfold BytesInMemory
  decide

/-- `MemReadIsLittleEndian`, `MemWriteWritesExactlyItsBytes` and `LoadAfterStoreGivesTheLowBytes` have these hypotheses. -/
theorem witness_MemWriteWritesExactlyItsBytes :
    Memory.wf State.reset.mem ∧ (4 = 1 ∨ 4 = 2 ∨ 4 = 4) ∧ BytesInMemory State.reset.config 96#32 4 :=
  ⟨witness_bytesInMemory.2.2.2.2.2.2, by decide, witness_bytesInMemory.2.2.1⟩

theorem witness_opImm :
    fieldOpcode 0x00108113#32 = 0x13#7 ∧ fieldFunct3 0x00108113#32 = 0#3 ∧
    (fieldOpcode 0x0050A113#32 = 0x13#7 ∧ fieldFunct3 0x0050A113#32 = 2#3) ∧ (fieldOpcode 0xFFF0B113#32 = 0x13#7 ∧ fieldFunct3 0xFFF0B113#32 = 3#3) ∧
    (fieldOpcode 0x7FF0C113#32 = 0x13#7 ∧ fieldFunct3 0x7FF0C113#32 = 4#3) ∧ (fieldOpcode 0xFFF0E113#32 = 0x13#7 ∧ fieldFunct3 0xFFF0E113#32 = 6#3) ∧
    (fieldOpcode 0x0F00F113#32 = 0x13#7 ∧ fieldFunct3 0x0F00F113#32 = 7#3) ∧
    (fieldOpcode 0x00409113#32 = 0x13#7 ∧ fieldFunct3 0x00409113#32 = 1#3 ∧ fieldFunct7 0x00409113#32 = 0#7) ∧
    (fieldOpcode 0x02309113#32 = 0x13#7 ∧ fieldFunct3 0x02309113#32 = 1#3 ∧ fieldFunct7 0x02309113#32 ≠ 0#7) ∧
    (fieldOpcode 0x0040D113#32 = 0x13#7 ∧ fieldFunct3 0x0040D113#32 = 5#3 ∧ fieldFunct7 0x0040D113#32 = 0#7) ∧
    (fieldOpcode 0x4040D113#32 = 0x13#7 ∧ fieldFunct3 0x4040D113#32 = 5#3 ∧ fieldFunct7 0x4040D113#32 = 32#7) ∧
    (fieldOpcode 0x4240D113#32 = 0x13#7 ∧ fieldFunct3 0x4240D113#32 = 5#3 ∧ fieldFunct7 0x4240D113#32 ≠ 0#7 ∧ fieldFunct7 0x4240D113#32 ≠ 32#7) := by
  decide

theorem witness_op :
    (fieldOpcode 0x002081B3#32 = 0x33#7 ∧ fieldFunct3 0x002081B3#32 = 0#3 ∧ fieldFunct7 0x002081B3#32 = 0#7) ∧
    (fieldOpcode 0x403100B3#32 = 0x33#7 ∧ fieldFunct3 0x403100B3#32 = 0#3 ∧ fieldFunct7 0x403100B3#32 = 32#7) ∧
    (fieldOpcode 0x002091B3#32 = 0x33#7 ∧ fieldFunct3 0x002091B3#32 = 1#3 ∧ fieldFunct7 0x002091B3#32 = 0#7) ∧
    (fieldOpcode 0x0020A1B3#32 = 0x33#7 ∧ fieldFunct3 0x0020A1B3#32 = 2#3 ∧ fieldFunct7 0x0020A1B3#32 = 0#7) ∧
    (fieldOpcode 0x0020B1B3#32 = 0x33#7 ∧ fieldFunct3 0x0020B1B3#32 = 3#3 ∧ fieldFunct7 0x0020B1B3#32 = 0#7) ∧
    (fieldOpcode 0x0020C1B3#32 = 0x33#7 ∧ fieldFunct3 0x0020C1B3#32 = 4#3 ∧ fieldFunct7 0x0020C1B3#32 = 0#7) ∧
    (fieldOpcode 0x0020D1B3#32 = 0x33#7 ∧ fieldFunct3 0x0020D1B3#32 = 5#3 ∧ fieldFunct7 0x0020D1B3#32 = 0#7) ∧
    (fieldOpcode 0x4020D1B3#32 = 0x33#7 ∧ fieldFunct3 0x4020D1B3#32 = 5#3 ∧ fieldFunct7 0x4020D1B3#32 = 32#7) ∧
    (fieldOpcode 0x0020E1B3#32 = 0x33#7 ∧ fieldFunct3 0x0020E1B3#32 = 6#3 ∧ fieldFunct7 0x0020E1B3#32 = 0#7) ∧
    (fieldOpcode 0x0020F1B3#32 = 0x33#7 ∧ fieldFunct3 0x0020F1B3#32 = 7#3 ∧ fieldFunct7 0x0020F1B3#32 = 0#7) := by
  decide

theorem witness_otherOpcodes :
    fieldOpcode 0x123452B7#32 = 0x37#7 ∧ fieldOpcode 0x00001097#32 = 0x17#7 ∧ fieldOpcode 0x0100056F#32 = 0x6F#7 ∧
    (fieldOpcode 0x00A58567#32 = 0x67#7 ∧ fieldFunct3 0x00A58567#32 = 0#3) ∧ (fieldOpcode 0x000290E7#32 = 0x67#7 ∧ fieldFunct3 0x000290E7#32 ≠ 0#3) ∧
    (fieldOpcode 0x00208563#32 = 0x63#7 ∧ fieldFunct3 0x00208563#32 = 0#3) ∧ (fieldOpcode 0xFE209EE3#32 = 0x63#7 ∧ fieldFunct3 0xFE209EE3#32 = 1#3) ∧
    (fieldOpcode 0x0020C463#32 = 0x63#7 ∧ fieldFunct3 0x0020C463#32 = 4#3) ∧ (fieldOpcode 0x0020D463#32 = 0x63#7 ∧ fieldFunct3 0x0020D463#32 = 5#3) ∧
    (fieldOpcode 0x0020E463#32 = 0x63#7 ∧ fieldFunct3 0x0020E463#32 = 6#3) ∧ (fieldOpcode 0x0020F463#32 = 0x63#7 ∧ fieldFunct3 0x0020F463#32 = 7#3) ∧
    (fieldOpcode 0x00008283#32 = 0x03#7 ∧ fieldFunct3 0x00008283#32 = 0#3) ∧ (fieldOpcode 0x00109283#32 = 0x03#7 ∧ fieldFunct3 0x00109283#32 = 1#3) ∧
    (fieldOpcode 0x0000A283#32 = 0x03#7 ∧ fieldFunct3 0x0000A283#32 = 2#3) ∧ (fieldOpcode 0x0000C283#32 = 0x03#7 ∧ fieldFunct3 0x0000C283#32 = 4#3) ∧
    (fieldOpcode 0x0020D283#32 = 0x03#7 ∧ fieldFunct3 0x0020D283#32 = 5#3) ∧ (fieldOpcode 0x00208023#32 = 0x23#7 ∧ fieldFunct3 0x00208023#32 = 0#3) ∧
    (fieldOpcode 0xFE209FA3#32 = 0x23#7 ∧ fieldFunct3 0xFE209FA3#32 = 1#3) ∧ (fieldOpcode 0x0020A023#32 = 0x23#7 ∧ fieldFunct3 0x0020A023#32 = 2#3) ∧
    fieldOpcode 0x0330000F#32 = 0x0F#7 ∧ fieldOpcode 0x00000073#32 = 0x73#7 := by
  decide

/-- `JalLinksAndJumps` and the branch statements: a target that is refused, and two that are not (even, or the parameter clear). -/
theorem witness_targetRefused :
    TargetRefused { Config.reference with checkMisalignedJump := true } 0x15#32 ∧
    ¬ TargetRefused { Config.reference with checkMisalignedJump := true } 0x14#32 ∧ ¬ TargetRefused Config.reference 0x15#32 := by
  unfold TargetRefused
  decide

/-- The `taken` and `not taken` clauses of the branch statements, for each predicate, on x1 and x2. -/
theorem witness_branches :
    let s := vec false 0x20#32 [(1#5, 0x80000000#32), (2#5, 0x7FFFFFFF#32)] [] 0x0020C463#32
    s.readReg 1#5 = s.readReg 1#5 ∧ s.readReg 1#5 ≠ s.readReg 2#5 ∧ (s.readReg 1#5).toInt < (s.readReg 2#5).toInt ∧
    ¬ (s.readReg 2#5).toInt ≤ (s.readReg 1#5).toInt ∧ (s.readReg 2#5).toNat ≤ (s.readReg 1#5).toNat ∧
    ¬ (s.readReg 1#5).toNat < (s.readReg 2#5).toNat := by
  decide

/-- The loads and stores: the last address where the access is in memory, and the first where it is not. -/
theorem witness_loadsAndStores :
    let s := vec false 0#32 [(1#5, 96#32)] [] 0x0000A283#32
    Memory.wf s.mem ∧ s.effectiveAddr 1#5 0#32 = 96#32 ∧ BytesInMemory s.config (s.effectiveAddr 1#5 0#32) 4 ∧
    BytesInMemory s.config (s.effectiveAddr 1#5 2#32) 2 ∧ BytesInMemory s.config (s.effectiveAddr 1#5 3#32) 1 ∧
    ¬ BytesInMemory s.config (s.effectiveAddr 1#5 1#32) 4 ∧ ¬ BytesInMemory s.config (s.effectiveAddr 1#5 3#32) 2 ∧
    ¬ BytesInMemory s.config (s.effectiveAddr 1#5 4#32) 1 := by
  unfold BytesInMemory
  decide

theorem witness_StoredWordIsFetched :
    ∃ s t u : State, Memory.wf s.mem ∧ BytesInMemory s.config (s.effectiveAddr 1#5 0#32) 4 ∧ exec (.sw 2#5 1#5 0#32) s = .next t ∧ u.mem = t.mem ∧
      u.pc = s.effectiveAddr 1#5 0#32 := by
  have ht : ∃ t, exec (.sw 2#5 1#5 0#32) (vec false 0#32 [(1#5, 96#32), (2#5, 0x13#32)] [] 0x0020A023#32) = .next t := ⟨_, rfl⟩
  obtain ⟨t, ht⟩ := ht
  exact ⟨_, t, { State.reset with mem := t.mem, pc := 96#32 }, by decide, by unfold BytesInMemory; decide, ht, rfl, rfl⟩

/-- The illegal words and the halting groups, in a Running block whose fetch succeeds. -/
theorem witness_illegalWords :
    let s := fun w => vec false 0#32 [] [] w
    (s 0#32).run = .running ∧ fetchable (s 0#32) = true ∧ (¬ KnownOpcode (fetchWord (s 0#32))) ∧
    SelectsNothing (fetchWord (s 0x022081B3#32)) ∧ fieldOpcode (fetchWord (s 0x0330000F#32)) = 0x0F#7 ∧
    fieldOpcode (fetchWord (s 0x00000073#32)) = 0x73#7 := by
  decide

/-- Each clause of `FirstFailingCheckIsReported`: a failed fetch, an unknown opcode, an illegal selection, both execute errors. They are also the
halting steps that `HaltsArePrecise` and `EvenPcNeverMisaligned` ask for. -/
theorem witness_FirstFailingCheckIsReported :
    (∃ t, step { vec false 0#32 [] [] 0#32 with pc := 1#32 } = .next t ∧ haltsWith t 1#32 .exhausted 0#32 = true) ∧
    (∃ t, step (vec false 0#32 [] [] 0#32) = .next t ∧ haltsWith t 0#32 .unknownOpcode 0#32 = true) ∧
    (∃ t, step (vec false 0#32 [] [] 0x022081B3#32) = .next t ∧ haltsWith t 0#32 .invalidEncoding 0x022081B3#32 = true) ∧
    (∃ t, step (vec false 0#32 [(1#5, 97#32)] [] 0x0000A283#32) = .next t ∧ haltsWith t 0#32 .outOfRangeMemory 97#32 = true) ∧
    (∃ t, step (vec true 0x11#32 [] [] 0x004000EF#32) = .next t ∧ haltsWith t 0x11#32 .misalignedJump 0x15#32 = true) :=
  ⟨next_of_nextIs (by decide), next_of_nextIs (by decide), next_of_nextIs (by decide), next_of_nextIs (by decide), next_of_nextIs (by decide)⟩

theorem witness_StepRunsTheDecodedInstruction :
    let s := vec false 0x20#32 [] [] 0x00108113#32
    s.run = .running ∧ WordInCode s.config s.pc ∧
    decode (Memory.read s.mem (s.pc.toNat + 3) ++ Memory.read s.mem (s.pc.toNat + 2) ++ Memory.read s.mem (s.pc.toNat + 1) ++
      Memory.read s.mem s.pc.toNat : BitVec 32) = .ok (.addi 2#5 1#5 1#32) ∧
    (Instr.addi 2#5 1#5 1#32).wf = true ∧
    ∀ k, k < 4 → Memory.read s.mem (s.pc.toNat + k) = (encode (.addi 2#5 1#5 1#32)).extractLsb' (8 * k) 8 := by
  unfold WordInCode
  decide

theorem witness_FetchOutsideCodeEndsTheRun :
    State.reset.run = .running ∧ ¬ WordInCode State.reset.config State.reset.pc ∧
    ¬ WordInCode { Config.reference with codeLen := 4 } 1#32 ∧ ¬ WordInCode { Config.reference with codeLen := 4 } 0xFFFFFFFD#32 := by
  unfold WordInCode
  decide

/-- A committed step from an even, aligned PC: for the statements about a step's frame, the PC and the status. -/
theorem witness_committedStep :
    let s := vec false 0x20#32 [(1#5, 5#32)] [] 0x00108113#32
    (∃ t, step s = .next t ∧ goesOn t 0x24#32 = true) ∧ Memory.wf s.mem ∧ s.pc.toNat % 2 = 0 ∧
    fieldOpcode (fetchWord s) ≠ 0x6F#7 ∧ fieldOpcode (fetchWord s) ≠ 0x67#7 ∧ fieldOpcode (fetchWord s) ≠ 0x63#7 ∧
    fieldOpcode (fetchWord s) ≠ 0x23#7 :=
  ⟨next_of_nextIs (by decide), by decide, by decide, by decide, by decide, by decide, by decide⟩

/-- An even PC in a halting step, for `EvenPcNeverMisaligned`, with the parameter set. -/
theorem witness_EvenPcNeverMisaligned :
    ∃ t, step (vec true 0x10#32 [] [] 0x00000073#32) = .next t ∧ haltsWith t 0x10#32 .invalidEncoding 0x73#32 = true :=
  next_of_nextIs (by decide)

/-- A committed store, for `OnlyStoresChangeMemory`. -/
theorem witness_OnlyStoresChangeMemory :
    ∃ t, step (vec false 0#32 [(1#5, 0x40#32), (2#5, 0xA1B2C3D4#32)] [] 0x0020A023#32) = .next t ∧
      bytesAre t 0x40 [0xD4#8, 0xC3#8, 0xB2#8, 0xA1#8] = true :=
  next_of_nextIs (by decide)

theorem witness_ResetEstablishesTheResetState : ∃ s, resetBlock smallLoad = .next s := ⟨_, rfl⟩

/-- A state that meets the invariant and steps: for `InvariantKeptByEveryStep` and `ObservationDeterminesTheState`. -/
theorem witness_InvariantKeptByEveryStep :
    State.Inv (loadedState smallLoad) ∧ (∃ t, step (loadedState smallLoad) = .next t ∧ goesOn t 8#32 = true) :=
  ⟨{ configWf := by decide
     memWf := by decide
     memInWindow := by decide
     regZero := by decide
     running := by decide
     halted := by decide
     exhausted := by decide
     neverInvalidSize := by decide
     neverDuplicate := by decide
     misaligned := by decide }, next_of_nextIs (by decide)⟩

theorem witness_LoadedWordIsTheNextFetch :
    Memory.wf State.reset.mem ∧ State.reset.pc.toNat + 4 ≤ 2 ^ 32 ∧ State.reset.config.wf ∧
    ({ State.reset with pc := 0xFFFFFFFC#32 } : State).pc.toNat + 4 ≤ 2 ^ 32 := by
  decide

theorem witness_RegisterFileReadsAndWrites : 31#5 ≠ 0#5 ∧ 1#5 ≠ 0#5 ∧ 2#5 ≠ 1#5 ∧ 0#5 ≠ 1#5 := by
  decide

end Sys2Proof.Tests
end

section
/-!
PROOFS. Sign extension as an integer (00_scope.md R12): the word is seen as the value of its low `p + 1` bits, whose extension keeps the
two's-complement value.
-/

namespace Sys2Proof.Proofs

open Sys2Proof.Machine

/-- A word with no bit above `p` set is the `(p + 1)`-bit value that `sext_N` takes. -/
theorem sext_eq_sextN_setWidth {w : Word} {p : Nat} (hp : p < 32) (hw : w.toNat < 2 ^ (p + 1)) :
    sext w p = sextN (w.setWidth (p + 1)) := by
  have hlow : (w.setWidth (p + 1)).setWidth 32 = w := by
    apply BitVec.eq_of_toNat_eq
    rw [BitVec.toNat_setWidth_of_le hp, BitVec.toNat_setWidth, Nat.mod_eq_of_lt hw]
  rw [sextN, hlow, Nat.add_sub_cancel]

/-- The two's-complement value of the low `p + 1` bits of a word that has no others: bit `p` weighs `-2^p`. -/
theorem toInt_setWidth_of_lt {w : Word} {p : Nat} (hw : w.toNat < 2 ^ (p + 1)) :
    (w.setWidth (p + 1)).toInt = if w.toNat < 2 ^ p then (w.toNat : Int) else (w.toNat : Int) - 2 ^ (p + 1) := by
  have hsign : 2 * w.toNat < 2 ^ (p + 1) ↔ w.toNat < 2 ^ p := by omega
  simp only [BitVec.toInt_eq_toNat_cond, BitVec.toNat_setWidth, Nat.mod_eq_of_lt hw, hsign]
  norm_cast

/-- Settles O8: `sext` extends the value of the low `p + 1` bits, and the extension keeps that value's integer. -/
theorem sextIsTwosComplement : Obligations.SextIsTwosComplement := by
  intro w p hp hw
  rw [sext_eq_sextN_setWidth hp hw, toInt_sextN _ p.succ_pos hp, toInt_setWidth_of_lt hw]

end Sys2Proof.Proofs
end

section
/-!
PROOFS. The register file (10_state.md R32, R33, R35): the two directions of each operation, split on register 0.
-/

namespace Sys2Proof.Proofs

open Sys2Proof.Machine

/-- A register other than x0 reads its stored word (10_state.md R32). -/
theorem readReg_of_ne_zero (s : State) {i : Reg} (hi : i ≠ 0#5) : s.readReg i = s.regs[i.toNat]'i.isLt :=
  if_neg hi

/-- A write to x0 is discarded (10_state.md R33). -/
theorem writeReg_zero (s : State) (v : Word) : s.writeReg 0#5 v = s :=
  if_pos rfl

/-- A register other than x0 reads back the word written to it. -/
theorem readReg_writeReg_same (s : State) {i : Reg} (hi : i ≠ 0#5) (v : Word) : (s.writeReg i v).readReg i = v := by
  rw [State.readReg_writeReg, if_pos rfl, if_neg hi]

/-- A write leaves every other register as it reads. -/
theorem readReg_writeReg_of_ne (s : State) {i j : Reg} (hji : j ≠ i) (v : Word) :
    (s.writeReg i v).readReg j = s.readReg j := by
  rw [State.readReg_writeReg, if_neg hji]

/-- A register write does not touch the run state, the halt cause and info, or the parameters. -/
theorem writeReg_sameStatus (s : State) (i : Reg) (v : Word) : SameStatus s (s.writeReg i v) :=
  ⟨s.writeReg_run i v, s.writeReg_cause i v, s.writeReg_info i v, s.writeReg_config i v⟩

/-- Settles O10: x0 reads 0 and drops its writes; any other register reads its stored word, and a write changes that register only. -/
theorem registerFileReadsAndWrites : Obligations.RegisterFileReadsAndWrites := by
  intro s i j v
  exact ⟨s.readReg_zero, readReg_of_ne_zero s, (s.writeReg 0#5 v).readReg_zero, writeReg_zero s v,
    fun hi => readReg_writeReg_same s hi v, fun hji => readReg_writeReg_of_ne s hji v,
    s.writeReg_pc i v, s.writeReg_mem i v, writeReg_sameStatus s i v⟩

end Sys2Proof.Proofs
end

section
/-!
PROOFS. A load after a store (20_memory.md R66, R67, R68): in range, both primitives succeed, and the parameters that the range check
reads are not touched by the store, so what is left is that the bytes read back are the bytes written.
-/

namespace Sys2Proof.Proofs

open Sys2Proof.Machine

/-- The legal sizes are positive. -/
theorem pos_of_sizeOk {n : Nat} (hn : sizeOk n = true) : 0 < n := by
  rcases (sizeOk_iff n).1 hn with rfl | rfl | rfl <;> decide

/-- An in-range load answers the bytes at its address (20_memory.md R66). -/
theorem memRead_of_bytesInMemory {s : State} {addr : Word} {n : Nat} (hn : sizeOk n = true) (h : BytesInMemory s.config addr n) :
    memRead s addr n = .ok (Memory.readLE s.mem addr.toNat n) := by
  rw [memRead_eq hn, if_pos ((inRange_iff_bytes s.config addr (pos_of_sizeOk hn)).2 h)]

/-- An in-range store answers the state with the new bytes and nothing else changed (20_memory.md R67). -/
theorem memWrite_of_bytesInMemory {s : State} {addr : Word} {n : Nat} (hn : sizeOk n = true) (h : BytesInMemory s.config addr n)
    (v : Word) : memWrite s addr n v = .ok { s with mem := Memory.writeLE s.mem addr.toNat v n } := by
  rw [memWrite_eq hn, if_pos ((inRange_iff_bytes s.config addr (pos_of_sizeOk hn)).2 h)]

/-- Settles O14: the store is in range and keeps the parameters, so the load at the same place is in range too, and it reads back the
bytes just written. -/
theorem loadAfterStoreGivesTheLowBytes : Obligations.LoadAfterStoreGivesTheLowBytes := by
  intro s addr v n hwf hsize hin
  have hn : sizeOk n = true := (sizeOk_iff n).2 hsize
  refine ⟨_, memWrite_of_bytesInMemory hn hin v, ?_⟩
  calc memRead { s with mem := Memory.writeLE s.mem addr.toNat v n } addr n
      = .ok (Memory.readLE (Memory.writeLE s.mem addr.toNat v n) addr.toNat n) := memRead_of_bytesInMemory hn hin
    _ = .ok (v &&& mask (n * 8)) := by rw [Memory.readLE_writeLE hwf]

end Sys2Proof.Proofs
end

section
/-!
PROOFS. The five immediates as integers (30_encoding.md R92 to R97): each sign-extended field is `word[31]` in front of lower bits, so its
value is that of the lower bits less the weight of the sign.
-/

namespace Sys2Proof.Proofs

open Sys2Proof.Machine

/-- The sign bit `word[31]` of every immediate but U, as a number. -/
def wordSign (w : Word) : Int :=
  if w.getLsbD 31 then 1 else 0

/-- The sign bit is what lies above the low 31 bits. -/
theorem wordSign_eq_div (w : Word) : wordSign w = (w.toNat / 2 ^ 31 : Nat) := by
  have hw := w.isLt
  have hbit : w.getLsbD 31 = true ↔ w.toNat / 2 ^ 31 = 1 := by
    rw [← BitVec.testBit_toNat, Nat.testBit_eq_decide_div_mod_eq, decide_eq_true_iff]
    omega
  simp only [wordSign, hbit]
  split <;> omega

theorem wordSign_eq_zero_or_one (w : Word) : wordSign w = 0 ∨ wordSign w = 1 := by
  unfold wordSign
  split <;> simp

/-- A field made of the sign bit of `w` in front of `n` lower bits extends to the value of those bits less `2^n` times the sign. -/
theorem toInt_sextN_of_sign {w : Word} {n low : Nat} {v : BitVec (n + 1)} (hn : n < 32)
    (hv : v.toNat = w.toNat / 2 ^ 31 * 2 ^ n + low) (hlow : low < 2 ^ n) :
    (sextN v).toInt = (low : Int) - wordSign w * 2 ^ n := by
  have hw := w.isLt
  have hsign : w.toNat / 2 ^ 31 = 0 ∨ w.toNat / 2 ^ 31 = 1 := by omega
  rw [toInt_sextN v n.succ_pos hn, BitVec.toInt_eq_toNat_cond, hv, wordSign_eq_div, pow_succ 2 n]
  rcases hsign with hclear | hset
  · rw [hclear, if_pos (by omega)]
    simp
  · rw [hset, if_neg (by omega)]
    push_cast
    ring

/-- The I immediate is `word[30:20]` with the sign weighing `-2^11` (R92). -/
theorem immI_toInt (w : Word) : (immI w).toInt = (w.toNat / 2 ^ 20 % 2 ^ 11 : Nat) - wordSign w * 2 ^ 11 := by
  have hw := w.isLt
  refine toInt_sextN_of_sign (by decide) ?_ (by omega)
  rw [toNat_bits]
  omega

/-- The S immediate is `word[30:25] ++ word[11:7]` with the sign weighing `-2^11` (R93). -/
theorem immS_toInt (w : Word) :
    (immS w).toInt = (w.toNat / 2 ^ 25 % 2 ^ 6 * 2 ^ 5 + w.toNat / 2 ^ 7 % 2 ^ 5 : Nat) - wordSign w * 2 ^ 11 := by
  have hw := w.isLt
  refine toInt_sextN_of_sign (by decide) ?_ (by omega)
  simp only [toNat_concat, toNat_bits]
  omega

/-- The B immediate is `word[7] ++ word[30:25] ++ word[11:8] ++ 0` with the sign weighing `-2^12` (R94). -/
theorem immB_toInt (w : Word) :
    (immB w).toInt = (w.toNat / 2 ^ 7 % 2 * 2 ^ 11 + w.toNat / 2 ^ 25 % 2 ^ 6 * 2 ^ 5 + w.toNat / 2 ^ 8 % 2 ^ 4 * 2 : Nat) -
      wordSign w * 2 ^ 12 := by
  have hw := w.isLt
  refine toInt_sextN_of_sign (by decide) ?_ (by omega)
  simp only [toNat_concat, toNat_bits, BitVec.toNat_ofNat]
  omega

/-- The U immediate is the word with its low 12 bits cleared (R96). -/
theorem immU_toNat (w : Word) : (immU w).toNat = w.toNat / 2 ^ 12 * 2 ^ 12 := by
  have hw := w.isLt
  rw [immU, toNat_concat, toNat_bits, BitVec.toNat_ofNat]
  omega

/-- The J immediate is `word[19:12] ++ word[20] ++ word[30:21] ++ 0` with the sign weighing `-2^20` (R97). -/
theorem immJ_toInt (w : Word) :
    (immJ w).toInt = (w.toNat / 2 ^ 12 % 2 ^ 8 * 2 ^ 12 + w.toNat / 2 ^ 20 % 2 * 2 ^ 11 + w.toNat / 2 ^ 21 % 2 ^ 10 * 2 : Nat) -
      wordSign w * 2 ^ 20 := by
  have hw := w.isLt
  refine toInt_sextN_of_sign (by decide) ?_ (by omega)
  simp only [toNat_concat, toNat_bits, BitVec.toNat_ofNat]
  omega

theorem immI_inRange (w : Word) : imm12InRange (immI w) := by
  have hsign := wordSign_eq_zero_or_one w
  rw [imm12InRange, immI_toInt]
  omega

theorem immS_inRange (w : Word) : imm12InRange (immS w) := by
  have hsign := wordSign_eq_zero_or_one w
  rw [imm12InRange, immS_toInt]
  omega

theorem immB_inRange (w : Word) : imm13InRange (immB w) := by
  have hsign := wordSign_eq_zero_or_one w
  rw [imm13InRange, immB_toInt]
  omega

theorem immJ_inRange (w : Word) : imm21InRange (immJ w) := by
  have hsign := wordSign_eq_zero_or_one w
  rw [imm21InRange, immJ_toInt]
  omega

/-- Settles O5: the value of each immediate and, from it, the range of its format. -/
theorem immediatesOfEveryWord : Obligations.ImmediatesOfEveryWord := by
  intro w
  exact ⟨⟨immI_toInt w, immI_inRange w⟩, ⟨immS_toInt w, immS_inRange w⟩, ⟨immB_toInt w, immB_inRange w⟩, immU_toNat w,
    immJ_toInt w, immJ_inRange w⟩

end Sys2Proof.Proofs
end

section
/-!
PROOFS. The opcode table (30_encoding.md R100): registration of entries with distinct opcodes appends them in order, and a table whose
opcodes are distinct looks up exactly its entries.
-/

namespace Sys2Proof.Proofs

/-- A lookup answers exactly for the opcodes that some entry has. -/
theorem isSome_lookup_iff (t : FormatTable) (op : BitVec 7) : (t.lookup op).isSome = true ↔ op ∈ t.map Prod.fst := by
  simp only [List.lookup_isSome_iff, List.mem_map, beq_iff_eq, eq_comm (a := op)]

/-- Registering an opcode that the table has fails (R100). -/
theorem registerOpcode_of_mem {t : FormatTable} {op : BitVec 7} (h : op ∈ t.map Prod.fst) (f : Format) :
    registerOpcode t op f = .error .duplicateRegistration :=
  if_pos ((isSome_lookup_iff t op).2 h)

/-- Registering a new opcode puts its entry at the end. -/
theorem registerOpcode_of_not_mem {t : FormatTable} {op : BitVec 7} (h : op ∉ t.map Prod.fst) (f : Format) :
    registerOpcode t op f = .ok (t ++ [(op, f)]) :=
  if_neg (mt (isSome_lookup_iff t op).1 h)

/-- Registering entries whose opcodes are new and distinct appends them all. -/
theorem registerAll_of_nodup (entries t : FormatTable) (h : ((t ++ entries).map Prod.fst).Nodup) :
    registerAll entries t = .ok (t ++ entries) := by
  induction entries generalizing t with
  | nil => simp [registerAll]
  | cons entry rest ih =>
    obtain ⟨op, f⟩ := entry
    have hnew : op ∉ t.map Prod.fst := by
      intro hmem
      rw [List.map_append, List.nodup_append] at h
      obtain ⟨-, -, hdisjoint⟩ := h
      exact hdisjoint op hmem op (by simp) rfl
    have hassoc : t ++ (op, f) :: rest = t ++ [(op, f)] ++ rest := by simp
    rw [registerAll, registerOpcode_of_not_mem hnew, hassoc]
    exact ih _ (hassoc ▸ h)

/-- A table whose opcodes are distinct looks up exactly its entries. -/
theorem lookup_eq_some_iff_mem {t : FormatTable} (h : (t.map Prod.fst).Nodup) (op : BitVec 7) (f : Format) :
    t.lookup op = some f ↔ (op, f) ∈ t := by
  induction t with
  | nil => simp
  | cons entry rest ih =>
    obtain ⟨op', f'⟩ := entry
    obtain ⟨hnew, hrest⟩ := List.nodup_cons.1 h
    by_cases hop : op = op'
    · subst hop
      have hmem : (op, f) ∉ rest := fun hf => hnew (List.mem_map.2 ⟨_, hf, rfl⟩)
      simp [hmem, eq_comm]
    · have hne : (op == op') = false := beq_false_of_ne hop
      simp [List.lookup_cons, hne, hop, ih hrest]

/-- The eleven opcodes of R100 are distinct. -/
theorem baseTable_nodup : (baseTable.map Prod.fst).Nodup := by
  decide

/-- Settles O6: the eleven opcodes are distinct, so registration from the empty mapping appends every entry and the table looks up exactly
these; an opcode that has an entry is found, so registering it again fails. -/
theorem opcodeTableIsTheElevenEntries : Obligations.OpcodeTableIsTheElevenEntries :=
  ⟨⟨baseTable, registerAll_of_nodup baseTable [] baseTable_nodup, lookup_eq_some_iff_mem baseTable_nodup⟩,
    fun _ _ f _ hmem => registerOpcode_of_mem (List.mem_map_of_mem hmem) f⟩

end Sys2Proof.Proofs
end

section
/-!
PROOFS. What the statements on the computational instructions share (40_integer_computational.md sections 1 and 2): the instruction that the
function fields of a word select, and the one shape of execution, so that each statement is left with the value of its result.
-/

namespace Sys2Proof.Proofs

open Sys2Proof.Machine

/-- A word of opcode OP-IMM decodes by its funct3 (30_encoding.md R103); for a funct3 that is a literal the selection computes. -/
theorem decode_opImm_of_funct3 {w : Word} {f3 : BitVec 3} (hop : fieldOpcode w = 0x13#7) (h3 : fieldFunct3 w = f3) :
    decode w = selectOpImm w f3 (fieldRd w) (fieldRs1 w) (immI w) := by
  rw [decode_opImm hop, h3]

/-- A word of opcode OP decodes by its key (funct7, funct3) (30_encoding.md R103); for a literal key the selection computes. -/
theorem decode_op_of_key {w : Word} {f7 : BitVec 7} {f3 : BitVec 3} (hop : fieldOpcode w = 0x33#7) (h7 : fieldFunct7 w = f7)
    (h3 : fieldFunct3 w = f3) : decode w = selectOp w f7 f3 (fieldRd w) (fieldRs1 w) (fieldRs2 w) := by
  rw [decode_op hop, h7, h3]

/-- An instruction that computes `v` into `rd` answers a next state in which only `rd` and the PC differ, and whatever is known of `v` is
known of its result. -/
theorem exec_writesOnly_of_compute {i : Instr} {s : State} {rd : Reg} {v : Word} {Result : Word → Prop}
    (hexec : exec i s = s.compute rd v) (hv : Result v) :
    ∃ t r, exec i s = .next t ∧ WritesOnly s t rd r (s.pc + 4#32) ∧ Result r := by
  obtain ⟨t, hnext, hwrites⟩ := s.compute_spec rd v
  exact ⟨t, v, hexec.trans hnext, hwrites, hv⟩

end Sys2Proof.Proofs
end

section
/-!
PROOFS. OP-IMM (40_integer_computational.md section 1): addition and the bitwise operations with the sign-extended immediate.
-/

namespace Sys2Proof.Proofs

open Sys2Proof.Machine

/-- Settles O16: funct3 0 selects ADDI, and the sum of two words is the sum of their values modulo 2^32. -/
theorem addImmediateWraps : Obligations.AddImmediateWraps :=
  ⟨fun _ hop h3 => decode_opImm_of_funct3 hop h3,
    fun _ rs1 imm s => exec_writesOnly_of_compute rfl (BitVec.toNat_add (s.readReg rs1) imm)⟩

/-- Settles O18: funct3 4, 6, 7 select XORI, ORI, ANDI, and bit `k` of each result is the operation on bits `k` of its operands. -/
theorem bitwiseImmediateActsOnEachBit : Obligations.BitwiseImmediateActsOnEachBit := by
  refine ⟨fun w hop => ⟨?xori, ?ori, ?andi⟩, fun rd rs1 imm s => ⟨?xoriBits, ?oriBits, ?andiBits⟩⟩
  case xori => exact decode_opImm_of_funct3 hop
  case ori => exact decode_opImm_of_funct3 hop
  case andi => exact decode_opImm_of_funct3 hop
  case xoriBits => exact exec_writesOnly_of_compute rfl fun _ _ => BitVec.getLsbD_xor
  case oriBits => exact exec_writesOnly_of_compute rfl fun _ _ => BitVec.getLsbD_or
  case andiBits => exact exec_writesOnly_of_compute rfl fun _ _ => BitVec.getLsbD_and

end Sys2Proof.Proofs
end

section
/-!
PROOFS. OP (40_integer_computational.md section 2): the result of each register instruction as integer arithmetic or bit by bit.
-/

namespace Sys2Proof.Proofs

open Sys2Proof.Machine

/-- The difference of two words is the difference of their values modulo 2^32. -/
theorem toNat_sub_eq_emod (a b : Word) : ((a - b).toNat : Int) = ((a.toNat : Int) - b.toNat) % 2 ^ 32 := by
  have hb := b.isLt
  rw [BitVec.toNat_sub]
  omega

/-- The result of SLT: 1 for a lesser two's-complement value, else 0. -/
theorem toNat_boolWord_ltSigned (a b : Word) : (boolWord (ltSigned a b)).toNat = if a.toInt < b.toInt then 1 else 0 := by
  simp only [toNat_boolWord, ltSigned_iff]

/-- The result of SLTU: 1 for a lesser unsigned value, else 0. -/
theorem toNat_boolWord_ltUnsigned (a b : Word) : (boolWord (ltUnsigned a b)).toNat = if a.toNat < b.toNat then 1 else 0 := by
  simp only [toNat_boolWord, ltUnsigned_iff]

/-- A register shift amount is the value modulo 32 (R140). -/
theorem shiftAmount_eq_mod (v : Word) : shiftAmount v = v.toNat % 32 :=
  shiftAmount_bits v

/-- A left shift multiplies, modulo 2^32. -/
theorem toNat_shiftLeft_eq_mul (a : Word) (n : Nat) : (a <<< n).toNat = a.toNat * 2 ^ n % 2 ^ 32 := by
  rw [BitVec.toNat_shiftLeft, Nat.shiftLeft_eq]

/-- A logical right shift divides the unsigned value. -/
theorem toNat_ushiftRight_eq_div (a : Word) (n : Nat) : (a >>> n).toNat = a.toNat / 2 ^ n := by
  rw [BitVec.toNat_ushiftRight, Nat.shiftRight_eq_div_pow]

/-- An arithmetic right shift divides the signed value and rounds down. -/
theorem toInt_sshiftRight_eq_div (a : Word) (n : Nat) : (a.sshiftRight n).toInt = a.toInt / 2 ^ n := by
  rw [BitVec.toInt_sshiftRight, Int.shiftRight_eq_div_pow, Nat.cast_pow, Nat.cast_ofNat]

/-- Settles O20: the sum and the difference of two words are those of their values modulo 2^32. -/
theorem addAndSubWrap : Obligations.AddAndSubWrap := by
  refine ⟨fun w hop h3 => ⟨?add, ?sub⟩, fun rd rs1 rs2 s => ⟨?sum, ?difference⟩⟩
  case add => exact fun h7 => decode_op_of_key hop h7 h3
  case sub => exact fun h7 => decode_op_of_key hop h7 h3
  case sum => exact exec_writesOnly_of_compute rfl (BitVec.toNat_add _ _)
  case difference => exact exec_writesOnly_of_compute rfl (toNat_sub_eq_emod _ _)

/-- Settles O21: the comparison that SLT writes is that of the signed values, and the one SLTU writes that of the unsigned values. -/
theorem setLessThanCompares : Obligations.SetLessThanCompares := by
  refine ⟨fun w hop h7 => ⟨?slt, ?sltu⟩, fun rd rs1 rs2 s => ⟨?signed, ?unsigned⟩⟩
  case slt => exact decode_op_of_key hop h7
  case sltu => exact decode_op_of_key hop h7
  case signed => exact exec_writesOnly_of_compute rfl (toNat_boolWord_ltSigned _ _)
  case unsigned => exact exec_writesOnly_of_compute rfl (toNat_boolWord_ltUnsigned _ _)

/-- Settles O22: bit `k` of each result is the operation on bits `k` of its operands. -/
theorem bitwiseActsOnEachBit : Obligations.BitwiseActsOnEachBit := by
  refine ⟨fun w hop h7 => ⟨?xor, ?or, ?and⟩, fun rd rs1 rs2 s => ⟨?xorBits, ?orBits, ?andBits⟩⟩
  case xor => exact decode_op_of_key hop h7
  case or => exact decode_op_of_key hop h7
  case and => exact decode_op_of_key hop h7
  case xorBits => exact exec_writesOnly_of_compute rfl fun _ _ => BitVec.getLsbD_xor
  case orBits => exact exec_writesOnly_of_compute rfl fun _ _ => BitVec.getLsbD_or
  case andBits => exact exec_writesOnly_of_compute rfl fun _ _ => BitVec.getLsbD_and

/-- Settles O23: the amount is x[rs2] modulo 32, and a shift by it multiplies or divides x[rs1] by that power of two. -/
theorem shiftIsArithmetic : Obligations.ShiftIsArithmetic := by
  refine ⟨fun w hop => ⟨?sll, ?srl, ?sra⟩, fun rd rs1 rs2 s => ?results⟩
  case sll => exact fun h3 h7 => decode_op_of_key hop h7 h3
  case srl => exact fun h3 h7 => decode_op_of_key hop h7 h3
  case sra => exact fun h3 h7 => decode_op_of_key hop h7 h3
  case results =>
    rw [← shiftAmount_eq_mod]
    exact ⟨exec_writesOnly_of_compute rfl (toNat_shiftLeft_eq_mul _ _), exec_writesOnly_of_compute rfl (toNat_ushiftRight_eq_div _ _),
      exec_writesOnly_of_compute rfl (toInt_sshiftRight_eq_div _ _)⟩

end Sys2Proof.Proofs
end

section
/-!
PROOFS. The round trip from an instruction to its word and back (30_encoding.md R99 to R107): the word of a record decodes to that record,
and selection from the record gives the instruction.
-/

namespace Sys2Proof.Proofs

open Sys2Proof.Machine

section records

variable {f7 : BitVec 7} {rs2 rs1 : Reg} {f3 : BitVec 3} {rd : Reg} {op : BitVec 7} {imm : Word} {u20 : BitVec 20}

/-! ## An immediate in its range reads back from its word -/

theorem immI_encI_of_imm12 (h : imm12InRange imm) : immI (encI imm rs1 f3 rd op) = imm := by
  rw [immI_encI, signExtend_of_imm12 h]

theorem immS_encS_of_imm12 (h : imm12InRange imm) : immS (encS imm rs2 rs1 f3 op) = imm := by
  rw [immS_encS, signExtend_of_imm12 h]

theorem immB_encB_of_imm13 (h : imm13InRange imm) : immB (encB imm rs2 rs1 f3 op) = imm := by
  have ⟨_, _, heven⟩ := h
  rw [immB_encB (h0 := bit0_of_even heven), signExtend_of_imm13 h]

theorem immJ_encJ_of_imm21 (h : imm21InRange imm) : immJ (encJ imm rd op) = imm := by
  have ⟨_, _, heven⟩ := h
  rw [immJ_encJ (h0 := bit0_of_even heven), signExtend_of_imm21 h]

/-! ## The record of an encoded word -/

theorem decodeRecord_encR (hop : formatOf op = some .r) :
    decodeRecord (encR f7 rs2 rs1 f3 rd op) = .ok (.r f7 rs2 rs1 f3 rd op) := by
  simp [decodeRecord, hop]

theorem decodeRecord_encI (hop : formatOf op = some .i) (himm : imm12InRange imm) :
    decodeRecord (encI imm rs1 f3 rd op) = .ok (.i imm rs1 f3 rd op) := by
  simp [decodeRecord, hop, immI_encI_of_imm12 himm]

theorem decodeRecord_encS (hop : formatOf op = some .s) (himm : imm12InRange imm) :
    decodeRecord (encS imm rs2 rs1 f3 op) = .ok (.s imm rs2 rs1 f3 op) := by
  simp [decodeRecord, hop, immS_encS_of_imm12 himm]

theorem decodeRecord_encB (hop : formatOf op = some .b) (himm : imm13InRange imm) :
    decodeRecord (encB imm rs2 rs1 f3 op) = .ok (.b imm rs2 rs1 f3 op) := by
  simp [decodeRecord, hop, immB_encB_of_imm13 himm]

theorem decodeRecord_encU (hop : formatOf op = some .u) :
    decodeRecord (encU u20 rd op) = .ok (.u (u20 ++ 0#12 : BitVec 32) rd op) := by
  simp [decodeRecord, hop, immU_encU]

theorem decodeRecord_encJ (hop : formatOf op = some .j) (himm : imm21InRange imm) :
    decodeRecord (encJ imm rd op) = .ok (.j imm rd op) := by
  simp [decodeRecord, hop, immJ_encJ_of_imm21 himm]

end records

/-- Settles O4: every field of the encoded word reads back, and an immediate in its range is the extension of its own low bits. -/
theorem recordsRoundTrip : Obligations.RecordsRoundTrip :=
  ⟨fun _ _ _ _ _ _ => decodeRecord_encR, fun _ _ _ _ _ => decodeRecord_encI, fun _ _ _ _ _ => decodeRecord_encS,
    fun _ _ _ _ _ => decodeRecord_encB, fun _ _ _ => decodeRecord_encU, fun _ _ _ => decodeRecord_encJ⟩

/-- A word that has a record decodes by selection from that record (30_encoding.md R101, R103). -/
theorem decode_of_decodeRecord {w : Word} {rec : Record} (h : decodeRecord w = .ok rec) : decode w = select w rec := by
  have hop : fieldOpcode w ≠ 0x0F#7 := by
    intro hmisc
    simp [decodeRecord, hmisc] at h
  simp only [decode, if_neg hop, h]

/-- An upper immediate is written by its upper 20 bits and extends from them. -/
theorem decodeRecord_encU_of_immUpper {imm : Word} {rd : Reg} {op : BitVec 7} (hop : formatOf op = some .u) (himm : immUpperInRange imm) :
    decodeRecord (encU (imm.extractLsb' 12 20) rd op) = .ok (.u imm rd op) := by
  rw [decodeRecord_encU hop, upper_of_immUpper himm]

/-- The immediate of a shift word is in the range of its format, so its record is that of its fields (30_encoding.md R104). -/
theorem decodeRecord_encI_shiftImm (key : BitVec 7) (shamt : BitVec 5) (rs1 : Reg) (f3 : BitVec 3) (rd : Reg) :
    decodeRecord (encI (shiftImm key shamt) rs1 f3 rd 0x13#7) = .ok (.i (shiftImm key shamt) rs1 f3 rd 0x13#7) := by
  simp [decodeRecord, immI_encI, shiftImm_signExtend]

/-- The word of a shift decodes by its key, with its shift amount. -/
theorem decode_encI_shiftImm (key : BitVec 7) (shamt : BitVec 5) (rs1 : Reg) (f3 : BitVec 3) (rd : Reg) :
    decode (encI (shiftImm key shamt) rs1 f3 rd 0x13#7) =
      selectOpImm (encI (shiftImm key shamt) rs1 f3 rd 0x13#7) f3 rd rs1 (shiftImm key shamt) :=
  decode_of_decodeRecord (decodeRecord_encI_shiftImm key shamt rs1 f3 rd)

/-- Settles O2, by cases on the instruction: its word has the record of its fields, and selection from that record computes. -/
theorem decodeOfEncodeIsTheInstruction : Obligations.DecodeOfEncodeIsTheInstruction := by
  intro i hwf
  cases i with
  | slli | srli | srai => simp [encode, decode_encI_shiftImm, selectOpImm, shiftImm_key, shiftImm_shamt]
  | add | sub | sll | slt | sltu | xor | srl | sra | or | and => exact decode_of_decodeRecord (decodeRecord_encR rfl)
  | lui | auipc => exact decode_of_decodeRecord (decodeRecord_encU_of_immUpper rfl (of_decide_eq_true hwf))
  | jal => exact decode_of_decodeRecord (decodeRecord_encJ rfl (of_decide_eq_true hwf))
  | beq | bne | blt | bge | bltu | bgeu => exact decode_of_decodeRecord (decodeRecord_encB rfl (of_decide_eq_true hwf))
  | sb | sh | sw => exact decode_of_decodeRecord (decodeRecord_encS rfl (of_decide_eq_true hwf))
  | miscMem word => exact decode_miscMem (eq_of_beq hwf)
  | _ => exact decode_of_decodeRecord (decodeRecord_encI rfl (of_decide_eq_true hwf))

end Sys2Proof.Proofs
end

section
/-!
PROOFS. Selection the other way (30_encoding.md R103): what each row of the selection answers is an instruction of that row's encoding
form, and the function fields for which it answers none. From them, a word that decodes is its instruction's word, and exactly which words
decode.
-/

namespace Sys2Proof.Proofs

open Sys2Proof.Machine

/-- A word has an opcode outside the table or one of the eleven of R100. -/
theorem opcode_cases (op : BitVec 7) :
    formatOf op = none ∨ op = 0x03#7 ∨ op = 0x0F#7 ∨ op = 0x13#7 ∨ op = 0x17#7 ∨ op = 0x23#7 ∨ op = 0x33#7 ∨ op = 0x37#7 ∨
      op = 0x63#7 ∨ op = 0x67#7 ∨ op = 0x6F#7 ∨ op = 0x73#7 := by
  by_cases h : formatOf op = none
  · exact .inl h
  · rw [formatOf_isNone_iff, not_not] at h
    exact .inr (by simpa using h)

theorem immU_inRange (w : Word) : immUpperInRange (immU w) := by
  rw [immUpperInRange, immU_toNat]
  omega

section selection

variable {w : Word} {i : Instr} {f7 : BitVec 7} {f3 : BitVec 3} {rd rs1 rs2 : Reg} {imm : Word}

/-! ## What a row selects is written back in the row's form -/

theorem selectOp_ok (h : selectOp w f7 f3 rd rs1 rs2 = .ok i) : encode i = encR f7 rs2 rs1 f3 rd 0x33#7 ∧ i.wf = true := by
  unfold selectOp at h
  repeat' split at h
  all_goals cases h
  all_goals exact ⟨by simp only [encode, *], rfl⟩

theorem selectLoad_ok (h : selectLoad w f3 rd rs1 imm = .ok i) (himm : imm12InRange imm) :
    encode i = encI imm rs1 f3 rd 0x03#7 ∧ i.wf = true := by
  unfold selectLoad at h
  repeat' split at h
  all_goals cases h
  all_goals exact ⟨by simp only [encode, *], decide_eq_true himm⟩

theorem selectStore_ok (h : selectStore w f3 rs2 rs1 imm = .ok i) (himm : imm12InRange imm) :
    encode i = encS imm rs2 rs1 f3 0x23#7 ∧ i.wf = true := by
  unfold selectStore at h
  repeat' split at h
  all_goals cases h
  all_goals exact ⟨by simp only [encode, *], decide_eq_true himm⟩

theorem selectBranch_ok (h : selectBranch w f3 rs1 rs2 imm = .ok i) (himm : imm13InRange imm) :
    encode i = encB imm rs2 rs1 f3 0x63#7 ∧ i.wf = true := by
  unfold selectBranch at h
  repeat' split at h
  all_goals cases h
  all_goals exact ⟨by simp only [encode, *], decide_eq_true himm⟩

/-- The I immediate of a shift word is its key and its shift amount (R104). -/
theorem shiftImm_of_key {key : BitVec 7} (hkey : (immI w).extractLsb' 5 7 = key) :
    shiftImm key ((immI w).extractLsb' 0 5) = immI w := by
  rw [← hkey, immI_key, immI_shamt, shiftImm_fields]

theorem selectOpImm_ok (h : selectOpImm w f3 rd rs1 (immI w) = .ok i) :
    encode i = encI (immI w) rs1 f3 rd 0x13#7 ∧ i.wf = true := by
  have himm : decide (imm12InRange (immI w)) = true := decide_eq_true (immI_inRange w)
  unfold selectOpImm at h
  repeat' split at h
  all_goals cases h
  all_goals exact ⟨by simp only [encode, shiftImm_of_key, *], by simp only [Instr.wf, himm]⟩

/-- The JALR row, which has the one function field (R103). -/
theorem selectJalr_ok
    (h : (if f3 = 0#3 then .ok (.jalr rd rs1 imm) else .error (.invalidEncoding w) : Except Raise Instr) = .ok i)
    (himm : imm12InRange imm) : encode i = encI imm rs1 f3 rd 0x67#7 ∧ i.wf = true := by
  split at h
  all_goals cases h
  exact ⟨by simp only [encode, *], decide_eq_true himm⟩

/-! ## Where a row selects nothing -/

theorem selectOp_eq_error_iff :
    selectOp w f7 f3 rd rs1 rs2 = .error (.invalidEncoding w) ↔ ¬ (f7 = 0#7 ∨ (f7 = 32#7 ∧ (f3 = 0#3 ∨ f3 = 5#3))) := by
  by_cases h0 : f7 = 0#7
  · rcases funct3_cases f3 with rfl | rfl | rfl | rfl | rfl | rfl | rfl | rfl <;> simp [selectOp, h0]
  · by_cases h32 : f7 = 32#7
    · rcases funct3_cases f3 with rfl | rfl | rfl | rfl | rfl | rfl | rfl | rfl <;> simp [selectOp, h32]
    · simp [selectOp, h0, h32]

theorem selectOpImm_eq_error_iff :
    selectOpImm w f3 rd rs1 (immI w) = .error (.invalidEncoding w) ↔
      (f3 = 1#3 ∧ fieldFunct7 w ≠ 0#7) ∨ (f3 = 5#3 ∧ fieldFunct7 w ≠ 0#7 ∧ fieldFunct7 w ≠ 32#7) := by
  by_cases h5 : f3 = 5#3
  · by_cases h0 : fieldFunct7 w = 0#7 <;> simp [selectOpImm, immI_key, h5, h0]
  · rcases funct3_cases f3 with rfl | rfl | rfl | rfl | rfl | rfl | rfl | rfl <;> simp_all [selectOpImm, immI_key]

theorem selectLoad_eq_error_iff :
    selectLoad w f3 rd rs1 imm = .error (.invalidEncoding w) ↔ f3 = 3#3 ∨ f3 = 6#3 ∨ f3 = 7#3 := by
  rcases funct3_cases f3 with rfl | rfl | rfl | rfl | rfl | rfl | rfl | rfl <;> simp [selectLoad]

theorem selectStore_eq_error_iff :
    selectStore w f3 rs2 rs1 imm = .error (.invalidEncoding w) ↔ 3 ≤ f3.toNat := by
  rcases funct3_cases f3 with rfl | rfl | rfl | rfl | rfl | rfl | rfl | rfl <;> simp [selectStore]

theorem selectBranch_eq_error_iff :
    selectBranch w f3 rs1 rs2 imm = .error (.invalidEncoding w) ↔ f3 = 2#3 ∨ f3 = 3#3 := by
  rcases funct3_cases f3 with rfl | rfl | rfl | rfl | rfl | rfl | rfl | rfl <;> simp [selectBranch]

end selection

/-- Settles O3, by the opcode: what a row selects is written in the row's form, and that form writes a word back from its own fields. -/
theorem encodeOfDecodeIsTheWord : Obligations.EncodeOfDecodeIsTheWord := by
  intro w i h
  rcases opcode_cases (fieldOpcode w) with hop | hop | hop | hop | hop | hop | hop | hop | hop | hop | hop | hop
  · cases (decode_unknown hop).symm.trans h
  · obtain ⟨hword, hwf⟩ := selectLoad_ok ((decode_load hop).symm.trans h) (immI_inRange w)
    exact ⟨hword.trans (hop ▸ encI_fields w), hwf⟩
  · cases (decode_miscMem hop).symm.trans h
    exact ⟨rfl, beq_iff_eq.2 hop⟩
  · obtain ⟨hword, hwf⟩ := selectOpImm_ok ((decode_opImm hop).symm.trans h)
    exact ⟨hword.trans (hop ▸ encI_fields w), hwf⟩
  · cases (decode_auipc hop).symm.trans h
    exact ⟨by rw [encode, ← hop, encU_fields], decide_eq_true (immU_inRange w)⟩
  · obtain ⟨hword, hwf⟩ := selectStore_ok ((decode_store hop).symm.trans h) (immS_inRange w)
    exact ⟨hword.trans (hop ▸ encS_fields w), hwf⟩
  · obtain ⟨hword, hwf⟩ := selectOp_ok ((decode_op hop).symm.trans h)
    exact ⟨hword.trans (hop ▸ encR_fields w), hwf⟩
  · cases (decode_lui hop).symm.trans h
    exact ⟨by rw [encode, ← hop, encU_fields], decide_eq_true (immU_inRange w)⟩
  · obtain ⟨hword, hwf⟩ := selectBranch_ok ((decode_branch hop).symm.trans h) (immB_inRange w)
    exact ⟨hword.trans (hop ▸ encB_fields w), hwf⟩
  · obtain ⟨hword, hwf⟩ := selectJalr_ok ((decode_jalr hop).symm.trans h) (immI_inRange w)
    exact ⟨hword.trans (hop ▸ encI_fields w), hwf⟩
  · cases (decode_jal hop).symm.trans h
    exact ⟨by rw [encode, ← hop, encJ_fields], decide_eq_true (immJ_inRange w)⟩
  · cases (decode_system hop).symm.trans h
    exact ⟨by rw [encode, ← hop, encI_fields], decide_eq_true (immI_inRange w)⟩

/-! ## Exactly which words decode -/

theorem not_knownOpcode_iff (w : Word) : ¬ KnownOpcode w ↔ formatOf (fieldOpcode w) = none :=
  (formatOf_isNone_iff _).symm

/-- The record extraction misses the opcode exactly where the table does (R101). -/
theorem formatOf_of_decodeRecord_unknown {w : Word} (h : decodeRecord w = .error (.unknownOpcode w)) : formatOf (fieldOpcode w) = none := by
  unfold decodeRecord at h
  split at h
  · assumption
  all_goals cases h

/-- A word outside the table has the one error, and selection never answers it (R101 to R103). -/
theorem decode_eq_unknownOpcode_iff (w : Word) : decode w = .error (.unknownOpcode w) ↔ ¬ KnownOpcode w := by
  rw [not_knownOpcode_iff]
  refine ⟨fun h => ?_, decode_unknown⟩
  cases hrec : decodeRecord w with
  | ok rec => cases select_error ((decode_of_decodeRecord hrec).symm.trans h)
  | error r =>
    have hmisc : fieldOpcode w ≠ 0x0F#7 := fun hop => by cases (decode_miscMem hop).symm.trans h
    simp only [decode, if_neg hmisc, hrec] at h
    cases h
    exact formatOf_of_decodeRecord_unknown hrec

theorem knownOpcode_of_selectsNothing {w : Word} (h : SelectsNothing w) : KnownOpcode w := by
  rcases h with ⟨hop, -⟩ | ⟨hop, -⟩ | ⟨hop, -⟩ | ⟨hop, -⟩ | ⟨hop, -⟩ | ⟨hop, -⟩ <;> simp [KnownOpcode, hop]

/-- A word of the table is rejected exactly for the function fields that select nothing (R103). -/
theorem decode_eq_invalidEncoding_iff (w : Word) : decode w = .error (.invalidEncoding w) ↔ SelectsNothing w := by
  rcases opcode_cases (fieldOpcode w) with hop | hop | hop | hop | hop | hop | hop | hop | hop | hop | hop | hop
  · have hknown : ¬ SelectsNothing w := fun h => (not_knownOpcode_iff w).2 hop (knownOpcode_of_selectsNothing h)
    simp [decode_unknown hop, hknown]
  · simp [decode_load hop, selectLoad_eq_error_iff, SelectsNothing, hop]
  · simp [decode_miscMem hop, SelectsNothing, hop]
  · simp [decode_opImm hop, selectOpImm_eq_error_iff, SelectsNothing, hop]
  · simp [decode_auipc hop, SelectsNothing, hop]
  · simp [decode_store hop, selectStore_eq_error_iff, SelectsNothing, hop]
  · simp [decode_op hop, selectOp_eq_error_iff, SelectsNothing, hop]
  · simp [decode_lui hop, SelectsNothing, hop]
  · simp [decode_branch hop, selectBranch_eq_error_iff, SelectsNothing, hop]
  · simp [decode_jalr hop, SelectsNothing, hop]
  · simp [decode_jal hop, SelectsNothing, hop]
  · simp [decode_system hop, SelectsNothing, hop]

/-- Settles O7: the two errors have their exact conditions, and a word decodes when it has neither. -/
theorem decoderRejectsExactly : Obligations.DecoderRejectsExactly := by
  intro w
  have hunknown := decode_eq_unknownOpcode_iff w
  have hinvalid := decode_eq_invalidEncoding_iff w
  refine ⟨hunknown, hinvalid, ?_⟩
  rw [← not_not (a := KnownOpcode w), ← hunknown, ← hinvalid]
  cases hdecode : decode w with
  | ok i => simp
  | error r => rcases decode_error hdecode with rfl | rfl <;> simp

/-- Settles O1: each word is evaluated. -/
theorem sampleWordsDecode : Obligations.SampleWordsDecode :=
  ⟨rfl, rfl, rfl, rfl, rfl, rfl, rfl, rfl, rfl, rfl⟩

end Sys2Proof.Proofs
end

section
/-!
PROOFS. Loads, stores and fetches as sums of bytes (20_memory.md R62 to R70), and the reinterpretations of 00_scope.md R13.
-/

namespace Sys2Proof.Proofs

open Sys2Proof.Machine

/-! ## Little-endian reads as sums -/

theorem toNat_readLE_one (m : Memory) (a : Nat) : (Memory.readLE m a 1).toNat = (Memory.read m a).toNat := by
  rw [Memory.readLE_one, BitVec.toNat_setWidth_of_le (by decide)]

theorem toNat_readLE_two (m : Memory) (a : Nat) :
    (Memory.readLE m a 2).toNat = (Memory.read m a).toNat + 2 ^ 8 * (Memory.read m (a + 1)).toNat := by
  rw [Memory.readLE_two, BitVec.toNat_setWidth_of_le (by decide), toNat_two_bytes]

theorem toNat_readLE_four (m : Memory) (a : Nat) :
    (Memory.readLE m a 4).toNat = (Memory.read m a).toNat + 2 ^ 8 * (Memory.read m (a + 1)).toNat +
      2 ^ 16 * (Memory.read m (a + 2)).toNat + 2 ^ 24 * (Memory.read m (a + 3)).toNat := by
  rw [Memory.readLE_four, toNat_four_bytes]

/-! ## The accessors -/

theorem inRange_eq_false_of_not_bytesInMemory {c : Config} {addr : Word} {n : Nat} (hn : sizeOk n = true)
    (h : ¬ BytesInMemory c addr n) : inRange c addr n = false :=
  Bool.eq_false_iff.2 (mt (inRange_iff_bytes c addr (pos_of_sizeOk hn)).1 h)

/-- An out-of-range load raises with its address (20_memory.md R66). -/
theorem memRead_of_not_bytesInMemory {s : State} {addr : Word} {n : Nat} (hn : sizeOk n = true) (h : ¬ BytesInMemory s.config addr n) :
    memRead s addr n = .error (.outOfRangeMemory addr) := by
  rw [memRead_eq hn, inRange_eq_false_of_not_bytesInMemory hn h]
  rfl

/-- An out-of-range store raises with its address and answers no state (20_memory.md R67). -/
theorem memWrite_of_not_bytesInMemory {s : State} {addr : Word} {n : Nat} (hn : sizeOk n = true)
    (h : ¬ BytesInMemory s.config addr n) (v : Word) : memWrite s addr n v = .error (.outOfRangeMemory addr) := by
  rw [memWrite_eq hn, inRange_eq_false_of_not_bytesInMemory hn h]
  rfl

/-- Byte `k` of a store reads as byte `k` of the value (20_memory.md R67). -/
theorem toNat_read_writeLE {m : Memory} (h : Memory.wf m) (a : Nat) (v : Word) {n k : Nat} (hk : k < n) :
    (Memory.read (Memory.writeLE m a v n) (a + k)).toNat = v.toNat / 2 ^ (8 * k) % 2 ^ 8 := by
  rw [Memory.read_writeLE h, if_pos (by omega), Nat.add_sub_cancel_left, toNat_byte]

/-- A store leaves every byte outside its own as it reads. -/
theorem read_writeLE_outside {m : Memory} (h : Memory.wf m) (a : Nat) (v : Word) {n j : Nat} (hj : j < a ∨ a + n ≤ j) :
    Memory.read (Memory.writeLE m a v n) j = Memory.read m j := by
  rw [Memory.read_writeLE h, if_neg (by omega)]

/-- Settles O12: an access in range reads the bytes at its address, which are summed by size; any other raises. -/
theorem memReadIsLittleEndian : Obligations.MemReadIsLittleEndian := by
  intro s addr
  refine ⟨fun h => ?byte, fun h => ?half, fun h => ?word, fun n hsize h => ?outside⟩
  case byte => exact ⟨_, memRead_of_bytesInMemory rfl h, toNat_readLE_one _ _⟩
  case half => exact ⟨_, memRead_of_bytesInMemory rfl h, toNat_readLE_two _ _⟩
  case word => exact ⟨_, memRead_of_bytesInMemory rfl h, toNat_readLE_four _ _⟩
  case outside => exact memRead_of_not_bytesInMemory ((sizeOk_iff n).2 hsize) h

/-- Settles O13: the answer of a store in range is the state with the new bytes, which keeps all but memory; any other raises. -/
theorem memWriteWritesExactlyItsBytes : Obligations.MemWriteWritesExactlyItsBytes := by
  intro s addr v n hwf hsize
  have hn : sizeOk n = true := (sizeOk_iff n).2 hsize
  refine ⟨fun h => ⟨_, memWrite_of_bytesInMemory hn h v, ?_⟩, fun h => memWrite_of_not_bytesInMemory hn h v⟩
  exact ⟨fun k hk => toNat_read_writeLE hwf _ v hk, fun a ha => read_writeLE_outside hwf _ v ha, fun _ => rfl, ⟨rfl, rfl, rfl, rfl⟩,
    rfl, Memory.writeLE_wf hwf _ v n⟩

/-- Settles O15: a fetch is a four-byte read at the PC. -/
theorem fetchIsLittleEndian : Obligations.FetchIsLittleEndian := by
  intro s
  rw [fetchWord_eq_readLE, toNat_readLE_four]

/-- Settles O11: the check on the two ends is the check on every byte, and the window of an accepted configuration ends at 2^32. -/
theorem rangeCheckIsPerByte : Obligations.RangeCheckIsPerByte := by
  intro c addr n hn
  refine ⟨inRange_iff_bytes c addr hn, fun ⟨hwindow, _, _⟩ hin => ?_⟩
  obtain ⟨-, hend⟩ := (inRange_iff c addr n).1 hin
  omega

/-- Settles O9: both maps are the two's-complement value and its pattern, and an integer of 32 signed bits is its own residue. -/
theorem reinterpretationRoundTrips : Obligations.ReinterpretationRoundTrips := by
  refine ⟨fun x hlo hhi => ?_, fun v => ?_⟩
  · rw [asSigned_eq_toInt, asUnsigned, BitVec.toInt_ofInt]
    exact Int.bmod_eq_of_le_mul_two (by omega) (by omega)
  · rw [asSigned_eq_toInt, asUnsigned, BitVec.ofInt_toInt]

end Sys2Proof.Proofs
end

section
/-!
PROOFS. The computational instructions with an immediate: comparisons and shifts of OP-IMM, and the upper immediates
(40_integer_computational.md sections 1 and 3).
-/

namespace Sys2Proof.Proofs

open Sys2Proof.Machine

/-- Settles O17: funct3 2 and 3 select SLTI and SLTIU, which write the comparison of the signed and of the unsigned values. -/
theorem setLessThanImmediateCompares : Obligations.SetLessThanImmediateCompares := by
  refine ⟨fun w hop => ⟨?slti, ?sltiu⟩, fun rd rs1 imm s => ⟨?signed, ?unsigned⟩⟩
  case slti => exact decode_opImm_of_funct3 hop
  case sltiu => exact decode_opImm_of_funct3 hop
  case signed => exact exec_writesOnly_of_compute rfl (toNat_boolWord_ltSigned _ _)
  case unsigned => exact exec_writesOnly_of_compute rfl (toNat_boolWord_ltUnsigned _ _)

/-- Among the words of funct3 1, the key `word[31:25]` selects SLLI, with its amount in `word[24:20]` (30_encoding.md R104). -/
theorem decode_opImm_of_funct3_one {w : Word} (hop : fieldOpcode w = 0x13#7) (h3 : fieldFunct3 w = 1#3) :
    decode w =
      if fieldFunct7 w = 0#7 then .ok (.slli (fieldRd w) (fieldRs1 w) (fieldRs2 w)) else .error (.invalidEncoding w) := by
  rw [decode_opImm_of_funct3 hop h3, ← immI_key, ← immI_shamt]
  rfl

/-- Among the words of funct3 5, the key selects SRLI or SRAI (R104). -/
theorem decode_opImm_of_funct3_five {w : Word} (hop : fieldOpcode w = 0x13#7) (h3 : fieldFunct3 w = 5#3) :
    decode w =
      if fieldFunct7 w = 0#7 then .ok (.srli (fieldRd w) (fieldRs1 w) (fieldRs2 w))
      else if fieldFunct7 w = 32#7 then .ok (.srai (fieldRd w) (fieldRs1 w) (fieldRs2 w))
      else .error (.invalidEncoding w) := by
  rw [decode_opImm_of_funct3 hop h3, ← immI_key, ← immI_shamt]
  rfl

/-- Settles O19: the key selects the shift or nothing, and a shift by the amount multiplies or divides by that power of two. -/
theorem shiftImmediateIsArithmetic : Obligations.ShiftImmediateIsArithmetic := by
  refine ⟨fun w hop => ⟨?slli, ?slliBad, ?srli, ?srai, ?rightBad⟩, fun rd rs1 shamt s => ⟨?left, ?right, ?arithmetic⟩⟩
  case slli => exact fun h3 h7 => by rw [decode_opImm_of_funct3_one hop h3, if_pos h7]
  case slliBad => exact fun h3 h7 => by rw [decode_opImm_of_funct3_one hop h3, if_neg h7]
  case srli => exact fun h3 h7 => by rw [decode_opImm_of_funct3_five hop h3, if_pos h7]
  case srai => exact fun h3 h7 => by rw [decode_opImm_of_funct3_five hop h3, h7, if_neg (by decide), if_pos rfl]
  case rightBad => exact fun h3 h0 h32 => by rw [decode_opImm_of_funct3_five hop h3, if_neg h0, if_neg h32]
  case left => exact exec_writesOnly_of_compute rfl (toNat_shiftLeft_eq_mul _ _)
  case right => exact exec_writesOnly_of_compute rfl (toNat_ushiftRight_eq_div _ _)
  case arithmetic => exact exec_writesOnly_of_compute rfl (toInt_sshiftRight_eq_div _ _)

/-- Settles O24: both opcodes select without a function field, and the immediate is the word with its low 12 bits cleared. -/
theorem upperImmediateResults : Obligations.UpperImmediateResults := by
  refine ⟨fun w => ⟨?lui, ?auipc⟩, fun rd imm s => ⟨?loads, ?adds⟩⟩
  case lui => exact fun hop => ⟨immU w, decode_lui hop, immU_toNat w⟩
  case auipc => exact fun hop => ⟨immU w, decode_auipc hop, immU_toNat w⟩
  case loads => exact s.compute_spec rd imm
  case adds => exact exec_writesOnly_of_compute rfl (BitVec.toNat_add s.pc imm)

end Sys2Proof.Proofs
end

section
/-!
PROOFS. Control transfer (41_control_transfer.md): the jumps, and the one shape of a branch, so that each branch statement is left with its
predicate.
-/

namespace Sys2Proof.Proofs

open Sys2Proof.Machine

/-- JAL with a target that the check turns away raises and writes nothing (R171, R172). -/
theorem execJal_of_targetRefused {s : State} {imm : Word} (h : TargetRefused s.config (s.pc + imm)) (rd : Reg) :
    execJal rd imm s = .next (s.raise (.misalignedJump (s.pc + imm))) := by
  rw [execJal, State.relTarget, checkTarget_eq, if_pos ((targetRefused_iff _ _).1 h)]
  rfl

/-- JAL with any other target links and jumps (R172). -/
theorem execJal_of_not_targetRefused {s : State} {imm : Word} (h : ¬ TargetRefused s.config (s.pc + imm)) (rd : Reg) :
    execJal rd imm s = conclude s (.ok (jumpEffect s rd (s.pc + imm))) := by
  rw [execJal, State.relTarget, checkTarget_eq, if_neg (mt (targetRefused_iff _ _).2 h)]

/-- Settles O25: the target and the link are sums of words, and JAL goes by the target check. -/
theorem jalLinksAndJumps : Obligations.JalLinksAndJumps := by
  refine ⟨fun w => decode_jal, fun rd imm s => ?_⟩
  by_cases hrefused : TargetRefused s.config (s.pc + imm)
  · exact ⟨_, _, _, execJal_of_targetRefused hrefused rd, BitVec.toNat_add s.pc imm, BitVec.toNat_add s.pc 4#32,
      fun h => absurd hrefused h, fun _ => State.raise_haltsOnly s _⟩
  · obtain ⟨t, hnext, hwrites⟩ := jumpEffect_spec s rd (s.pc + imm)
    exact ⟨t, _, _, (execJal_of_not_targetRefused hrefused rd).trans hnext, BitVec.toNat_add s.pc imm, BitVec.toNat_add s.pc 4#32,
      fun _ => hwrites, fun h => absurd h hrefused⟩

/-- The JALR target is the sum rounded down to even (R173). -/
theorem toNat_regTarget (s : State) (rs1 : Reg) (imm : Word) :
    (s.regTarget rs1 imm).toNat = ((s.readReg rs1).toNat + imm.toNat) % 2 ^ 32 / 2 * 2 := by
  rw [State.regTarget, toNat_clear_bit0, BitVec.toNat_add]

/-- Settles O26: funct3 selects JALR or nothing, and JALR jumps without a check. -/
theorem jalrLinksAndJumpsEven : Obligations.JalrLinksAndJumpsEven := by
  refine ⟨fun w hop => ⟨fun h3 => ?_, fun h3 => ?_⟩, fun rd rs1 imm s => ?_⟩
  · rw [decode_jalr hop, if_pos h3]
  · rw [decode_jalr hop, if_neg h3]
  · obtain ⟨t, hnext, hwrites⟩ := jumpEffect_spec s rd (s.regTarget rs1 imm)
    exact ⟨t, _, _, hnext, toNat_regTarget s rs1 imm, BitVec.toNat_add s.pc 4#32, hwrites⟩

/-- A word of opcode BRANCH decodes by its funct3 (30_encoding.md R103). -/
theorem decode_branch_of_funct3 {w : Word} {f3 : BitVec 3} (hop : fieldOpcode w = 0x63#7) (h3 : fieldFunct3 w = f3) :
    decode w = selectBranch w f3 (fieldRs1 w) (fieldRs2 w) (immB w) := by
  rw [decode_branch hop, h3]

/-- An instruction that branches by a test answers a next state as `BranchesTo` says for what the test decides. -/
theorem exec_branchesTo {i : Instr} {s : State} {test : Bool} {taken : Prop} {imm : Word}
    (hexec : exec i s = conclude s (branch s test imm)) (htest : test = true ↔ taken) :
    ∃ t, exec i s = .next t ∧ BranchesTo s t taken imm := by
  obtain ⟨t, hnext, hnot, hjump, hhalt⟩ := branch_spec s test imm
  simp only [← targetRefused_iff, ← Bool.not_eq_true, htest] at hnot hjump hhalt
  exact ⟨t, hexec.trans hnext, s.pc + imm, BitVec.toNat_add s.pc imm, hjump, hhalt, hnot⟩

/-- Settles O27: the tests are equality and its negation. -/
theorem equalityBranches : Obligations.EqualityBranches := by
  refine ⟨fun w hop => ⟨decode_branch_of_funct3 hop, decode_branch_of_funct3 hop⟩, fun rs1 rs2 imm s => ⟨?_, ?_⟩⟩
  · exact exec_branchesTo rfl beq_iff_eq
  · exact exec_branchesTo rfl bne_iff_ne

theorem not_ltSigned_iff (a b : Word) : (!ltSigned a b) = true ↔ b.toInt ≤ a.toInt := by
  rw [Bool.not_eq_true', ← Bool.not_eq_true, ltSigned_iff, not_lt]

theorem not_ltUnsigned_iff (a b : Word) : (!ltUnsigned a b) = true ↔ b.toNat ≤ a.toNat := by
  rw [Bool.not_eq_true', ← Bool.not_eq_true, ltUnsigned_iff, not_lt]

/-- Settles O28: the tests compare the signed values. -/
theorem signedBranches : Obligations.SignedBranches := by
  refine ⟨fun w hop => ⟨decode_branch_of_funct3 hop, decode_branch_of_funct3 hop⟩, fun rs1 rs2 imm s => ⟨?_, ?_⟩⟩
  · exact exec_branchesTo rfl (ltSigned_iff _ _)
  · exact exec_branchesTo rfl (not_ltSigned_iff _ _)

/-- Settles O29: the tests compare the unsigned values. -/
theorem unsignedBranches : Obligations.UnsignedBranches := by
  refine ⟨fun w hop => ⟨decode_branch_of_funct3 hop, decode_branch_of_funct3 hop⟩, fun rs1 rs2 imm s => ⟨?_, ?_⟩⟩
  · exact exec_branchesTo rfl (ltUnsigned_iff _ _)
  · exact exec_branchesTo rfl (not_ltUnsigned_iff _ _)

end Sys2Proof.Proofs
end

section
/-!
PROOFS. Loads and stores (42_load_store.md): the one shape of each, split on whether every byte is in memory, so that each load statement is
left with the value it reads.
-/

namespace Sys2Proof.Proofs

open Sys2Proof.Machine

/-- A word of opcode LOAD decodes by its funct3 (30_encoding.md R103). -/
theorem decode_load_of_funct3 {w : Word} {f3 : BitVec 3} (hop : fieldOpcode w = 0x03#7) (h3 : fieldFunct3 w = f3) :
    decode w = selectLoad w f3 (fieldRd w) (fieldRs1 w) (immI w) := by
  rw [decode_load hop, h3]

/-- A word of opcode STORE decodes by its funct3 (R103). -/
theorem decode_store_of_funct3 {w : Word} {f3 : BitVec 3} (hop : fieldOpcode w = 0x23#7) (h3 : fieldFunct3 w = f3) :
    decode w = selectStore w f3 (fieldRs2 w) (fieldRs1 w) (immS w) := by
  rw [decode_store hop, h3]

/-- The effective address is the sum modulo 2^32 (42_load_store.md R200). -/
theorem toNat_effectiveAddr (s : State) (rs1 : Reg) (imm : Word) :
    (s.effectiveAddr rs1 imm).toNat = ((s.readReg rs1).toNat + imm.toNat) % 2 ^ 32 :=
  BitVec.toNat_add _ _

/-- An instruction that loads `n` bytes answers a next state as `LoadsTo` says, and whatever is known of the extended bytes is known of its
result. -/
theorem exec_loadsTo {i : Instr} {s : State} {n : Nat} {extend : Word → Word} {rd rs1 : Reg} {imm : Word} {Result : Word → Prop}
    (hn : sizeOk n = true) (hexec : exec i s = conclude s (load s n extend rd rs1 imm))
    (hv : Result (extend (Memory.readLE s.mem (s.effectiveAddr rs1 imm).toNat n))) :
    ∃ t v, exec i s = .next t ∧ LoadsTo s t rd (s.effectiveAddr rs1 imm) n v ∧ Result v := by
  obtain ⟨t, hnext, hwrites, hhalts⟩ := load_spec s hn extend rd rs1 imm
  refine ⟨t, _, hexec.trans hnext, ⟨fun hin => ?_, fun hout => ?_⟩, hv⟩
  · exact hwrites ((inRange_iff_bytes s.config _ (pos_of_sizeOk hn)).2 hin)
  · exact hhalts (inRange_eq_false_of_not_bytesInMemory hn hout)

/-- The result of LB is the byte as a signed value (R191). -/
theorem toInt_sext_readLE_one (m : Memory) (a : Nat) : (sext (Memory.readLE m a 1) 7).toInt = (Memory.read m a).toInt := by
  rw [Memory.readLE_one]
  exact toInt_sextN (Memory.read m a) (by decide) (by decide)

/-- The result of LH is the two bytes as a signed value (R192). -/
theorem toInt_sext_readLE_two (m : Memory) (a : Nat) :
    (sext (Memory.readLE m a 2) 15).toInt = (Memory.read m (a + 1) ++ Memory.read m a : BitVec 16).toInt := by
  rw [Memory.readLE_two]
  exact toInt_sextN (Memory.read m (a + 1) ++ Memory.read m a : BitVec 16) (by decide) (by decide)

/-- Settles O30: the value of LB and LH is the sign extension of the bytes read. -/
theorem signedLoadsExtend : Obligations.SignedLoadsExtend := by
  refine ⟨fun w hop => ⟨decode_load_of_funct3 hop, decode_load_of_funct3 hop⟩, fun rd rs1 imm s => ?_⟩
  refine ⟨s.effectiveAddr rs1 imm, toNat_effectiveAddr s rs1 imm, ?lb, ?lh⟩
  case lb => exact exec_loadsTo rfl rfl (toInt_sext_readLE_one _ _)
  case lh => exact exec_loadsTo rfl rfl (toInt_sext_readLE_two _ _)

/-- Settles O31: the value of LBU and LHU is the bytes read, with zeros above them. -/
theorem unsignedLoadsExtend : Obligations.UnsignedLoadsExtend := by
  refine ⟨fun w hop => ⟨decode_load_of_funct3 hop, decode_load_of_funct3 hop⟩, fun rd rs1 imm s => ?_⟩
  refine ⟨s.effectiveAddr rs1 imm, toNat_effectiveAddr s rs1 imm, ?lbu, ?lhu⟩
  case lbu => exact exec_loadsTo rfl rfl (toNat_readLE_one _ _)
  case lhu => exact exec_loadsTo rfl rfl (toNat_readLE_two _ _)

/-- Settles O32: the value of LW is the four bytes read. -/
theorem wordLoadReadsFourBytes : Obligations.WordLoadReadsFourBytes :=
  ⟨fun _ hop => decode_load_of_funct3 hop, fun _ rs1 imm s =>
    ⟨s.effectiveAddr rs1 imm, toNat_effectiveAddr s rs1 imm, exec_loadsTo rfl rfl (toNat_readLE_four _ _)⟩⟩

/-- An instruction that stores `n` bytes answers a next state as `StoresTo` says. -/
theorem exec_storesTo {i : Instr} {s : State} {n : Nat} {rs2 rs1 : Reg} {imm : Word} (hwf : Memory.wf s.mem) (hn : sizeOk n = true)
    (hexec : exec i s = conclude s (store s n rs2 rs1 imm)) :
    ∃ t, exec i s = .next t ∧ StoresTo s t (s.effectiveAddr rs1 imm) (s.readReg rs2) n := by
  obtain ⟨t, hnext, hstores, hhalts⟩ := store_spec s hn rs2 rs1 imm
  refine ⟨t, hexec.trans hnext, fun hin => ?_, fun hout => hhalts (inRange_eq_false_of_not_bytesInMemory hn hout)⟩
  obtain ⟨hpc, hregs, hstatus, hmem⟩ := hstores ((inRange_iff_bytes s.config _ (pos_of_sizeOk hn)).2 hin)
  refine ⟨fun k hk => ?_, fun a ha => ?_, hregs, hstatus, hpc⟩
  · rw [hmem, toNat_read_writeLE hwf _ _ hk]
  · rw [hmem, read_writeLE_outside hwf _ _ ha]

/-- Settles O33: the three stores have the one shape, with their sizes. -/
theorem storesWriteTheirBytes : Obligations.StoresWriteTheirBytes := by
  refine ⟨fun w hop => ⟨?sb, ?sh, ?sw⟩, fun rs2 rs1 imm s hwf => ⟨toNat_effectiveAddr s rs1 imm, ?byte, ?half, ?word⟩⟩
  case sb => exact decode_store_of_funct3 hop
  case sh => exact decode_store_of_funct3 hop
  case sw => exact decode_store_of_funct3 hop
  case byte => exact exec_storesTo hwf rfl rfl
  case half => exact exec_storesTo hwf rfl rfl
  case word => exact exec_storesTo hwf rfl rfl

theorem and_mask_32 (v : Word) : v &&& mask 32 = v :=
  BitVec.and_allOnes

/-- The word written at an address is the one read there (20_memory.md R68). -/
theorem readLE_writeLE_four {m : Memory} (h : Memory.wf m) (a : Nat) (v : Word) : Memory.readLE (Memory.writeLE m a v 4) a 4 = v := by
  rw [Memory.readLE_writeLE h, and_mask_32]

/-- Settles O34: SW leaves the memory with its word written, and the fetch is a four-byte read of that memory at the same address. -/
theorem storedWordIsFetched : Obligations.StoredWordIsFetched := by
  intro rs2 rs1 imm s t u hwf hin hexec hmem hpc
  obtain ⟨t', hnext, hstores, -⟩ := store_spec s (n := 4) rfl rs2 rs1 imm
  cases hexec.symm.trans hnext
  obtain ⟨-, -, -, hwritten⟩ := hstores ((inRange_iff_bytes s.config _ (by decide)).2 hin)
  rw [fetchWord_eq_readLE, hmem, hpc, hwritten, readLE_writeLE_four hwf]

end Sys2Proof.Proofs
end

section
/-!
PROOFS. The step, by what was fetched and decoded (10_state.md R48, 60_exceptions.md R226): steps that run an instruction, steps over
illegal words, and the status that a step writes.
-/

namespace Sys2Proof.Proofs

open Sys2Proof.Machine

/-! ## Which step is taken -/

/-- A step of a Running block over a word that decodes is the execution of its instruction. -/
theorem step_of_decode {s : State} {i : Instr} (hrun : s.run = .running) (hcode : WordInCode s.config s.pc)
    (h : decode (fetchWord s) = .ok i) : step s = exec i s := by
  rw [step_eq hrun hcode, fetchDecode, h]

/-- A step of a Running block over a word that does not decode raises the error of the decoder. -/
theorem step_of_decode_error {s : State} {r : Raise} (hrun : s.run = .running) (hcode : WordInCode s.config s.pc)
    (h : decode (fetchWord s) = .error r) : step s = .next (s.raise r) := by
  rw [step_eq hrun hcode, fetchDecode, h]

/-- A step of a Running block outside the code ends the run (20_memory.md R69). -/
theorem step_of_not_wordInCode {s : State} (hrun : s.run = .running) (hcode : ¬ WordInCode s.config s.pc) :
    step s = .next (exhaust s) := by
  obtain ⟨t, hnext⟩ := step_next_of_running hrun
  rcases step_inversion hnext with ⟨-, ⟨-, rfl⟩ | ⟨hin, -⟩⟩
  · exact hnext
  · exact absurd hin hcode

/-- The fetched word is the concatenation of the four bytes, the one at the PC lowest. -/
theorem fetchWord_eq_append (s : State) :
    fetchWord s = (Memory.read s.mem (s.pc.toNat + 3) ++ Memory.read s.mem (s.pc.toNat + 2) ++ Memory.read s.mem (s.pc.toNat + 1) ++
      Memory.read s.mem s.pc.toNat : BitVec 32) := by
  rw [fetchWord_eq_readLE, Memory.readLE_four]

/-- A word whose bytes lie at the PC is the one fetched. -/
theorem fetchWord_of_bytes {s : State} {w : Word} (h : ∀ k, k < 4 → Memory.read s.mem (s.pc.toNat + k) = w.extractLsb' (8 * k) 8) :
    fetchWord s = w := by
  rw [fetchWord_eq_readLE]
  apply BitVec.eq_of_getLsbD_eq
  intro j hj
  have hbyte : j / 8 < 4 := by omega
  have hbit : 8 * (j / 8) + j % 8 = j := by omega
  rw [Memory.getLsbD_readLE, h _ hbyte, BitVec.getLsbD_extractLsb', hbit]
  simp [hj, show j % 8 < 8 by omega]

/-- Settles O39: the concatenation is the fetched word. -/
theorem stepRunsTheDecodedInstruction : Obligations.StepRunsTheDecodedInstruction := by
  intro s i hrun hcode h
  exact step_of_decode hrun hcode (fetchWord_eq_append s ▸ h)

/-- Settles O40: the fetched word is that of the instruction, and a well-formed instruction decodes from its own word. -/
theorem stepRunsTheEncodedInstruction : Obligations.StepRunsTheEncodedInstruction := by
  intro s i hrun hcode hwf hbytes
  refine step_of_decode hrun hcode ?_
  rw [fetchWord_of_bytes hbytes]
  exact decodeOfEncodeIsTheInstruction i hwf

/-- Settles O41: such a step is `exhaust`, which is a precise halt. -/
theorem fetchOutsideCodeEndsTheRun : Obligations.FetchOutsideCodeEndsTheRun :=
  fun s hrun hcode => ⟨exhaust s, step_of_not_wordInCode hrun hcode, s.halt_haltsOnly _ _⟩

/-- Settles O42: a step that answers started Running, and a Running block always answers. -/
theorem stepAnswersExactlyWhenRunning : Obligations.StepAnswersExactlyWhenRunning :=
  fun _ => ⟨fun ⟨_, h⟩ => (step_cases h).1, step_next_of_running⟩

/-! ## Words that halt the step -/

/-- Settles O35: the word of a SYSTEM record is written back from its fields, so both groups record the word itself. -/
theorem haltingGroupsHalt : Obligations.HaltingGroupsHalt := by
  intro w s
  refine ⟨fun hop => ⟨_, decode_miscMem hop, rfl, State.raise_haltsOnly s _⟩, fun hop => ⟨_, decode_system hop, rfl, ?_⟩⟩
  have hword : encI (immI w) (fieldRs1 w) (fieldFunct3 w) (fieldRd w) 0x73#7 = w := hop ▸ encI_fields w
  rw [hword]
  exact State.raise_haltsOnly s _

/-- Settles O37: an illegal word raises in the decoder, and a word of the two groups decodes to the row that halts. -/
theorem illegalWordHaltsTheStep : Obligations.IllegalWordHaltsTheStep := by
  intro s hrun hcode
  refine ⟨fun hunknown => ?_, fun hillegal => ?_⟩
  · have h := (decode_eq_unknownOpcode_iff (fetchWord s)).2 hunknown
    exact ⟨_, step_of_decode_error hrun hcode h, State.raise_haltsOnly s _⟩
  · obtain ⟨hmisc, hsystem⟩ := haltingGroupsHalt (fetchWord s) s
    rcases hillegal with hnothing | hop | hop
    · have h := (decode_eq_invalidEncoding_iff (fetchWord s)).2 hnothing
      exact ⟨_, step_of_decode_error hrun hcode h, State.raise_haltsOnly s _⟩
    · obtain ⟨t, hdecode, hexec, hhalts⟩ := hmisc hop
      exact ⟨t, (step_of_decode hrun hcode hdecode).trans hexec, hhalts⟩
    · obtain ⟨t, hdecode, hexec, hhalts⟩ := hsystem hop
      exact ⟨t, (step_of_decode hrun hcode hdecode).trans hexec, hhalts⟩

/-! ## The status -/

/-- A step that answers a Halted state is a halt of the state before it: EXHAUSTED, or an error that the block produces. -/
theorem halting_step_cases {s t : State} (h : step s = .next t) (hhalted : t.run = .halted) :
    t = exhaust s ∨ ∃ r, t = s.raise r ∧ RaiseOk s r := by
  rcases step_cases h with ⟨hrun, ⟨-, rfl⟩ | ⟨-, r, rfl, hr⟩ | ⟨-, e, rfl, -⟩⟩
  · exact .inl rfl
  · exact .inr ⟨r, rfl, hr⟩
  · rw [State.commit_run, hrun] at hhalted
    cases hhalted

/-- The causes of the errors that the block produces. -/
theorem cause_of_raiseOk {s : State} {r : Raise} (h : RaiseOk s r) :
    r.cause = .unknownOpcode ∨ r.cause = .invalidEncoding ∨ r.cause = .outOfRangeMemory ∨ r.cause = .misalignedJump := by
  cases r with
  | unknownOpcode | invalidEncoding | outOfRangeMemory | misalignedJump => simp [Raise.cause]
  | invalidSize | duplicateRegistration => exact h.elim

/-- Settles O43: a halting step is a precise halt with one of these causes. -/
theorem haltsArePrecise : Obligations.HaltsArePrecise := by
  intro s t h hhalted
  rcases halting_step_cases h hhalted with rfl | ⟨r, rfl, hr⟩
  · exact ⟨s.halt_haltsOnly _ _, .inl rfl⟩
  · exact ⟨State.raise_haltsOnly s r, .inr (cause_of_raiseOk hr)⟩

/-- Settles O44: a halt keeps the parameters and is not Running; a commit keeps the whole status. -/
theorem statusIsWrittenOnlyByHalting : Obligations.StatusIsWrittenOnlyByHalting := by
  intro s t h
  rcases step_cases h with ⟨-, ⟨-, rfl⟩ | ⟨-, r, rfl, -⟩ | ⟨-, e, rfl, -⟩⟩
  · exact ⟨rfl, fun hrun => by cases hrun⟩
  · exact ⟨rfl, fun hrun => by cases hrun⟩
  · exact ⟨s.commit_config e, fun _ => ⟨s.commit_cause e, s.commit_info e⟩⟩

/-! ## The halt codes -/

/-- The cause of a code: the table of 60_exceptions.md R222 read from right to left. -/
def causeOfCode : Nat → HaltCause
  | 1 => .exhausted
  | 2 => .unknownOpcode
  | 3 => .invalidEncoding
  | 4 => .outOfRangeMemory
  | 5 => .invalidSize
  | 6 => .misalignedJump
  | 7 => .duplicateRegistration
  | _ => .none

theorem causeOfCode_code (c : HaltCause) : causeOfCode c.code = c := by
  cases c <;> rfl

/-- Settles O38: a code determines its cause, so no two causes share one; the exit status is read off for each cause. -/
theorem haltCodesAndExitStatus : Obligations.HaltCodesAndExitStatus := by
  refine ⟨rfl, rfl, rfl, rfl, rfl, rfl, rfl, rfl, Function.LeftInverse.injective causeOfCode_code, fun c => ?_, fun c => ?_⟩
  · cases c <;> simp [HaltCause.exitStatus]
  · cases c <;> simp [HaltCause.exitStatus]

end Sys2Proof.Proofs
end

section
/-!
PROOFS. What a step can change, in the fields of its fetched word (10_state.md R34, R42; 20_memory.md R73; 41_control_transfer.md R171): the
destination, the store, the next PC and the error of an instruction are read off the word it is encoded by, which is the word fetched.
-/

namespace Sys2Proof.Proofs

open Sys2Proof.Machine

/-! ## Instructions by the fields of their words -/

/-- The destination of an instruction is the rd field of its word. -/
theorem fieldRd_encode_of_dest {i : Instr} {rd : Reg} (h : i.dest = some rd) : fieldRd (encode i) = rd := by
  cases i with
  | beq | bne | blt | bge | bltu | bgeu | sb | sh | sw | miscMem | system => cases h
  | _ =>
    cases h
    simp only [encode, fieldRd_encR, fieldRd_encI, fieldRd_encU, fieldRd_encJ]

/-- A store has opcode STORE, and its address and size are those of its word. -/
theorem storeOf_encode {s : State} {i : Instr} {addr : Word} {n : Nat} (hwf : i.wf = true) (h : storeOf s i = some (addr, n)) :
    fieldOpcode (encode i) = 0x23#7 ∧ addr = s.effectiveAddr (fieldRs1 (encode i)) (immS (encode i)) ∧ n ≤ 4 := by
  cases i with
  | sb | sh | sw =>
    cases h
    simp [encode, immS_encS_of_imm12 (of_decide_eq_true hwf)]
  | _ => cases h

/-- The opcodes of the instructions that can set the PC to anything but `pc + 4`. -/
def TransferOpcode (op : BitVec 7) : Prop :=
  op = 0x6F#7 ∨ op = 0x67#7 ∨ op = 0x63#7

/-- Any other instruction goes on to `pc + 4`. -/
theorem nextPc_of_not_transferOpcode {s : State} {i : Instr} {pc : Word} (h : NextPc s pc i)
    (hop : ¬ TransferOpcode (fieldOpcode (encode i))) : pc = s.pcPlus4 := by
  cases i with
  | jal | jalr | beq | bne | blt | bge | bltu | bgeu => simp [encode, TransferOpcode] at hop
  | _ => exact h

/-- An error of execute in the fields of the word executed (60_exceptions.md R221): the address of a load or store, the target of JAL or a
branch, or the word of one of the two halting groups. -/
def ExecuteError (s : State) (w : Word) (r : Raise) : Prop :=
  (fieldOpcode w = 0x03#7 ∧ r = .outOfRangeMemory (s.effectiveAddr (fieldRs1 w) (immI w))) ∨
  (fieldOpcode w = 0x23#7 ∧ r = .outOfRangeMemory (s.effectiveAddr (fieldRs1 w) (immS w))) ∨
  (fieldOpcode w = 0x6F#7 ∧ RaisesTarget s (immJ w) r) ∨
  (fieldOpcode w = 0x63#7 ∧ RaisesTarget s (immB w) r) ∨
  ((fieldOpcode w = 0x0F#7 ∨ fieldOpcode w = 0x73#7) ∧ r = .invalidEncoding w)

/-- What an instruction raises is an error of its word. -/
theorem executeError_of_raises {s : State} {i : Instr} {r : Raise} (hwf : i.wf = true) (h : Raises s r i) :
    ExecuteError s (encode i) r := by
  cases i with
  | lb | lh | lw | lbu | lhu =>
    refine .inl ⟨fieldOpcode_encI .., ?_⟩
    rw [encode, fieldRs1_encI, immI_encI_of_imm12 (of_decide_eq_true hwf)]
    exact h
  | sb | sh | sw =>
    refine .inr (.inl ⟨fieldOpcode_encS .., ?_⟩)
    rw [encode, fieldRs1_encS, immS_encS_of_imm12 (of_decide_eq_true hwf)]
    exact h
  | jal =>
    refine .inr (.inr (.inl ⟨fieldOpcode_encJ .., ?_⟩))
    rw [encode, immJ_encJ_of_imm21 (of_decide_eq_true hwf)]
    exact h
  | beq | bne | blt | bge | bltu | bgeu =>
    refine .inr (.inr (.inr (.inl ⟨fieldOpcode_encB .., ?_⟩)))
    rw [encode, immB_encB_of_imm13 (of_decide_eq_true hwf)]
    exact h
  | miscMem => exact .inr (.inr (.inr (.inr ⟨.inl (eq_of_beq hwf), h⟩)))
  | system => exact .inr (.inr (.inr (.inr ⟨.inr (fieldOpcode_encI ..), h⟩)))
  | _ => exact h.elim

/-! ## The two ends of a step -/

/-- A step ends in a halt of the state before it, or in the commit of an effect of the instruction whose word was fetched. -/
theorem step_halt_or_commit {s t : State} (h : step s = .next t) :
    (∃ cause info, t = s.halt cause info) ∨
      (∃ i e, i.wf = true ∧ encode i = fetchWord s ∧ t = s.commit e ∧ EffectOf s i e) := by
  rcases step_inversion h with ⟨-, ⟨-, rfl⟩ | ⟨-, ⟨r, -, rfl⟩ | ⟨i, hdecode, ⟨r, rfl, -⟩ | ⟨e, rfl, heffect⟩⟩⟩⟩
  · exact .inl ⟨_, _, rfl⟩
  · exact .inl ⟨_, _, rfl⟩
  · exact .inl ⟨_, _, rfl⟩
  · obtain ⟨hword, hwf⟩ := encodeOfDecodeIsTheWord _ _ hdecode
    exact .inr ⟨i, e, hwf, hword, rfl, heffect⟩

/-- Settles O45: a halt writes no register, and a commit at most the destination of the instruction, which is the rd field of its word. -/
theorem stepWritesAtMostRd : Obligations.StepWritesAtMostRd := by
  intro s t h r hr
  rcases step_halt_or_commit h with ⟨cause, info, rfl⟩ | ⟨i, e, -, hword, rfl, heffect⟩
  · rfl
  · rw [State.commit_readReg]
    cases hwr : e.wr with
    | none => rfl
    | some write =>
      obtain ⟨rd, v⟩ := write
      have hrd : fieldRd (fetchWord s) = rd := hword ▸ fieldRd_encode_of_dest (heffect.wr rd v hwr)
      exact if_neg (hrd ▸ hr)

/-- Settles O46: a halt writes no byte, and a commit at most the bytes of the store of a STORE word, at its effective address. -/
theorem onlyStoresChangeMemory : Obligations.OnlyStoresChangeMemory := by
  intro s t hwf h
  rcases step_halt_or_commit h with ⟨cause, info, rfl⟩ | ⟨i, e, hi, hword, rfl, heffect⟩
  · exact ⟨fun _ _ => rfl, fun _ _ => rfl⟩
  · simp only [SameMemory, SameMemoryBut, State.commit_mem]
    cases hmw : e.mw with
    | none => exact ⟨fun _ _ => rfl, fun _ _ => rfl⟩
    | some write =>
      obtain ⟨addr, n, v⟩ := write
      obtain ⟨hop, haddr, hn⟩ := storeOf_encode hi (heffect.mw addr n v hmw)
      rw [hword] at hop haddr
      refine ⟨fun hne => absurd hop hne, fun a ha => ?_⟩
      rw [← haddr] at ha
      exact read_writeLE_outside hwf _ _ (by omega)

/-! ## The program counter -/

/-- Settles O47: no other opcode sets the PC, and `pc + 4` is the sum modulo 2^32, which keeps the residue modulo 4. -/
theorem pcAdvancesByFour : Obligations.PcAdvancesByFour := by
  intro s t h hrun hjal hjalr hbranch
  rcases step_halt_or_commit h with ⟨cause, info, rfl⟩ | ⟨i, e, -, hword, rfl, heffect⟩
  · cases hrun
  · have hop : ¬ TransferOpcode (fieldOpcode (encode i)) := by
      rw [hword]
      simp [TransferOpcode, hjal, hjalr, hbranch]
    have hpc : (s.commit e).pc.toNat = (s.pc.toNat + 4) % 2 ^ 32 := by
      rw [State.commit_pc, nextPc_of_not_transferOpcode heffect.nextPc hop]
      exact BitVec.toNat_add s.pc 4#32
    exact ⟨hpc, by omega⟩

/-- A word with an even two's-complement value is even. -/
theorem even_of_toInt_even {imm : Word} (h : imm.toInt % 2 = 0) : imm.toNat % 2 = 0 := by
  have hbit := bit0_of_even h
  rw [← Bool.not_eq_true, getLsbD_zero_iff_odd] at hbit
  omega

/-- A target at an even distance from an even PC is even: 2^32 is even, so the wrap keeps parity. -/
theorem relTarget_even {s : State} {imm : Word} (hpc : s.pc.toNat % 2 = 0) (himm : imm.toInt % 2 = 0) :
    (s.relTarget imm).toNat % 2 = 0 := by
  have heven := even_of_toInt_even himm
  rw [State.relTarget, BitVec.toNat_add]
  omega

theorem pcPlus4_even {s : State} (hpc : s.pc.toNat % 2 = 0) : s.pcPlus4.toNat % 2 = 0 :=
  relTarget_even (imm := 4#32) hpc rfl

theorem regTarget_even (s : State) (rs1 : Reg) (imm : Word) : (s.regTarget rs1 imm).toNat % 2 = 0 := by
  rw [toNat_regTarget]
  omega

/-- From an even PC every instruction goes on to an even PC. -/
theorem nextPc_even {s : State} {i : Instr} {pc : Word} (hwf : i.wf = true) (hpc : s.pc.toNat % 2 = 0) (h : NextPc s pc i) :
    pc.toNat % 2 = 0 := by
  cases i with
  | jal rd imm =>
    obtain ⟨-, -, himm⟩ : imm21InRange imm := of_decide_eq_true hwf
    rw [show pc = s.relTarget imm from h]
    exact relTarget_even hpc himm
  | jalr rd rs1 imm =>
    rw [show pc = s.regTarget rs1 imm from h]
    exact regTarget_even s rs1 imm
  | beq rs1 rs2 imm | bne rs1 rs2 imm | blt rs1 rs2 imm | bge rs1 rs2 imm | bltu rs1 rs2 imm | bgeu rs1 rs2 imm =>
    obtain ⟨-, -, himm⟩ : imm13InRange imm := of_decide_eq_true hwf
    rcases h with rfl | rfl
    · exact relTarget_even hpc himm
    · exact pcPlus4_even hpc
  | _ =>
    rw [show pc = s.pcPlus4 from h]
    exact pcPlus4_even hpc

/-- Settles O48: a halt leaves the PC, and from an even PC a commit goes to an even one. -/
theorem evenPcStaysEven : Obligations.EvenPcStaysEven := by
  intro s t h hpc
  rcases step_halt_or_commit h with ⟨cause, info, rfl⟩ | ⟨i, e, hwf, -, rfl, heffect⟩
  · exact hpc
  · exact nextPc_even hwf hpc heffect.nextPc

/-! ## The error of a step -/

/-- A halting step over a word that decodes raises an error of execute. -/
theorem halting_step_raises {s t : State} {i : Instr} (h : step s = .next t) (hhalted : t.run = .halted)
    (hcode : WordInCode s.config s.pc) (hdecode : decode (fetchWord s) = .ok i) :
    ∃ r, t = s.raise r ∧ ExecuteError s (fetchWord s) r := by
  have hrun := (step_cases h).1
  obtain ⟨hword, hwf⟩ := encodeOfDecodeIsTheWord _ _ hdecode
  rw [step_of_decode hrun hcode hdecode] at h
  rcases exec_effect i s with ⟨e, hexec, -⟩ | ⟨r, hexec, hraises⟩
  · cases h.symm.trans hexec
    rw [State.commit_run, hrun] at hhalted
    cases hhalted
  · cases h.symm.trans hexec
    exact ⟨r, rfl, hword ▸ executeError_of_raises hwf hraises⟩

/-- A target at an even distance from an even PC is never refused. -/
theorem not_raisesTarget_of_even {s : State} {imm : Word} {r : Raise} (hpc : s.pc.toNat % 2 = 0) (himm : imm.toInt % 2 = 0) :
    ¬ RaisesTarget s imm r := by
  rintro ⟨-, hodd, -⟩
  have heven := relTarget_even hpc himm
  rw [getLsbD_zero_iff_odd] at hodd
  omega

/-- A step has one answer, so a halt that it is known to end in is the one it reports. -/
theorem cause_info_of_step_halts {s t : State} {cause : HaltCause} {info : Word} (h : step s = .next t)
    (hhalts : ∃ t', step s = .next t' ∧ HaltsOnly s t' cause info) : t.cause = cause ∧ t.info = info := by
  obtain ⟨t', hnext, -, hcause, hinfo, -⟩ := hhalts
  cases h.symm.trans hnext
  exact ⟨hcause, hinfo⟩

/-- Settles O36: a failed fetch and an illegal word have their halts; over any other word the step raises an error of execute, and the
hypotheses leave out the two halting groups. -/
theorem firstFailingCheckIsReported : Obligations.FirstFailingCheckIsReported := by
  intro s t h hhalted
  have hrun := (step_cases h).1
  refine ⟨fun hcode => ?fetch, fun hcode hunknown => ?opcode, fun hcode hillegal => ?selection,
    fun hcode hknown hselects hmisc hsystem => ?execute⟩
  case fetch => exact cause_info_of_step_halts h (fetchOutsideCodeEndsTheRun s hrun hcode)
  case opcode => exact cause_info_of_step_halts h ((illegalWordHaltsTheStep s hrun hcode).1 hunknown)
  case selection => exact cause_info_of_step_halts h ((illegalWordHaltsTheStep s hrun hcode).2 hillegal)
  case execute =>
    obtain ⟨-, -, hdecodes⟩ := decoderRejectsExactly (fetchWord s)
    obtain ⟨i, hdecode⟩ := hdecodes.2 ⟨hknown, hselects⟩
    obtain ⟨r, rfl, herror⟩ := halting_step_raises h hhalted hcode hdecode
    rcases herror with ⟨hop, rfl⟩ | ⟨hop, rfl⟩ | ⟨hop, -, -, rfl⟩ | ⟨hop, -, -, rfl⟩ | ⟨hop | hop, -⟩
    · exact .inl ⟨rfl, .inl ⟨hop, rfl⟩⟩
    · exact .inl ⟨rfl, .inr ⟨hop, rfl⟩⟩
    · exact .inr ⟨rfl, .inl ⟨hop, rfl⟩⟩
    · exact .inr ⟨rfl, .inr ⟨hop, rfl⟩⟩
    · exact absurd hop hmisc
    · exact absurd hop hsystem

/-- Settles O49: only the target check of execute has that cause, and from an even PC it never turns a target away. -/
theorem evenPcNeverMisaligned : Obligations.EvenPcNeverMisaligned := by
  intro s t h hpc hhalted hcause
  rcases step_inversion h with ⟨-, ⟨-, rfl⟩ | ⟨hcode, ⟨r, hdecode, rfl⟩ | ⟨i, hdecode, -⟩⟩⟩
  · cases hcause
  · rcases decode_error hdecode with rfl | rfl <;> cases hcause
  · obtain ⟨r, rfl, herror⟩ := halting_step_raises h hhalted hcode hdecode
    obtain ⟨-, -, hJ⟩ := immJ_inRange (fetchWord s)
    obtain ⟨-, -, hB⟩ := immB_inRange (fetchWord s)
    rcases herror with ⟨-, rfl⟩ | ⟨-, rfl⟩ | ⟨-, htarget⟩ | ⟨-, htarget⟩ | ⟨-, rfl⟩
    · cases hcause
    · cases hcause
    · exact not_raisesTarget_of_even hpc hJ htarget
    · exact not_raisesTarget_of_even hpc hB htarget
    · cases hcause

end Sys2Proof.Proofs
end

section
/-!
PROOFS. Reset, the invariant and Observe (70_reset_and_hazards.md R260, 10_state.md R45, R47), and the word that `withFetchWord` loads.
-/

namespace Sys2Proof.Proofs

open Sys2Proof.Machine

/-! ## Reset -/

/-- Reset answers exactly for a load it accepts, and then the loaded state. -/
theorem resetBlock_eq_next_iff (l : Load) (s : State) : resetBlock l = .next s ↔ l.wf ∧ s = loadedState l := by
  by_cases h : l.wf
  · rw [resetBlock, if_pos h, Host.Outcome.next.injEq, eq_comm]
    exact (and_iff_right h).symm
  · rw [resetBlock, if_neg h]
    exact ⟨nofun, fun ⟨hwf, _⟩ => absurd hwf h⟩

theorem readReg_loadedState (l : Load) (r : Reg) : (loadedState l).readReg r = 0#32 := by
  simp [State.readReg, loadedState]

/-- The code region holds the code bytes (20_memory.md R61). -/
theorem read_loadedMemory_code {l : Load} {k : Nat} (hk : k < l.codeBytes.length) :
    some (Memory.read (loadedMemory l) (l.config.codeBase.toNat + k)) = l.codeBytes[k]? := by
  rw [loadedMemory, Memory.read_writeBytes (initMemory_wf _ _), if_pos (by omega), Nat.add_sub_cancel_left]
  simp [hk]

/-- The rest of the window holds `MEM_INIT` (R61). -/
theorem read_loadedMemory_rest {l : Load} {a : Nat} (hwindow : hasByte l.config a = true)
    (hrest : a < l.config.codeBase.toNat ∨ l.config.codeBase.toNat + l.codeBytes.length ≤ a) :
    Memory.read (loadedMemory l) a = Memory.read l.memInit a := by
  rw [loadedMemory, Memory.read_writeBytes (initMemory_wf _ _), if_neg (by omega), read_initMemory, if_pos hwindow]

/-- Settles O50: an accepted load is reset to its loaded state, whose memory is the code bytes over `MEM_INIT`. -/
theorem resetEstablishesTheResetState : Obligations.ResetEstablishesTheResetState := by
  intro l
  simp only [resetBlock_eq_next_iff]
  refine ⟨⟨fun ⟨_, hwf, _⟩ => ?_, fun h => ?_⟩, ?_⟩
  · obtain ⟨⟨hspace, hbase, hcode⟩, hlen⟩ := hwf
    exact ⟨hspace, hbase, hcode, hlen⟩
  · obtain ⟨hspace, hbase, hcode, hlen⟩ := h
    exact ⟨_, ⟨⟨hspace, hbase, hcode⟩, hlen⟩, rfl⟩
  · rintro s ⟨⟨-, hlen⟩, rfl⟩
    rw [← hlen]
    exact ⟨rfl, readReg_loadedState l, rfl, rfl, rfl, rfl, fun k hk => read_loadedMemory_code hk,
      fun a hlo hhi hrest => read_loadedMemory_rest ((hasByte_iff _ _).2 ⟨hlo, hhi⟩) hrest⟩

/-- A loaded memory lists nothing outside the window: `MEM_INIT` is cut to it and the code lies in it (00_scope.md R10). -/
theorem loadedMemory_inWindow {l : Load} (h : l.wf) : ∀ c ∈ loadedMemory l, hasByte l.config c.1 = true := by
  intro c hc
  obtain ⟨⟨-, hbase, hcode⟩, hlen⟩ := h
  rcases Memory.mem_writeBytes hc with hc | ⟨hlo, hhi⟩
  · exact initMemory_inWindow _ _ c hc
  · rw [hasByte_iff]
    omega

/-- The invariant holds after an accepted Reset. -/
theorem loadedState_inv {l : Load} (h : l.wf) : (loadedState l).Inv where
  configWf := h.1
  memWf := loadedMemory_wf l
  memInWindow := loadedMemory_inWindow h
  regZero := rfl
  running := fun _ => ⟨rfl, rfl⟩
  halted := nofun
  exhausted := nofun
  neverInvalidSize := nofun
  neverDuplicate := nofun
  misaligned := nofun

/-- Settles O51: `State.reset` is the loaded state of the reference load, which Reset accepts. -/
theorem invariantHoldsAfterReset : Obligations.InvariantHoldsAfterReset := by
  refine ⟨loadedState_inv (l := Load.reference) (by decide), fun l s h => ?_⟩
  obtain ⟨hwf, rfl⟩ := (resetBlock_eq_next_iff l s).1 h
  exact loadedState_inv hwf

/-! ## The invariant of a step -/

/-- A halt keeps what the invariant says of the parameters, memory and registers, so it keeps the invariant if its cause and info agree. -/
theorem halt_inv {s : State} (h : s.Inv) {cause : HaltCause} {info : Word} (hnone : cause ≠ .none)
    (hexhausted : cause = .exhausted → info = 0#32) (hsize : cause ≠ .invalidSize) (hduplicate : cause ≠ .duplicateRegistration)
    (hmisaligned : cause = .misalignedJump → s.config.checkMisalignedJump = true ∧ info.getLsbD 0 = true) :
    (s.halt cause info).Inv where
  configWf := h.configWf
  memWf := h.memWf
  memInWindow := h.memInWindow
  regZero := h.regZero
  running := nofun
  halted := fun _ => hnone
  exhausted := hexhausted
  neverInvalidSize := hsize
  neverDuplicate := hduplicate
  misaligned := hmisaligned

theorem exhaust_inv {s : State} (h : s.Inv) : (exhaust s).Inv :=
  halt_inv h (by decide) (fun _ => rfl) (by decide) (by decide) nofun

/-- Raising an error that the block produces keeps the invariant: EXHAUSTED is none of them. -/
theorem raise_inv {s : State} {r : Raise} (h : s.Inv) (hr : RaiseOk s r) : (s.raise r).Inv := by
  cases r with
  | unknownOpcode w | invalidEncoding w | outOfRangeMemory a => exact halt_inv h nofun nofun nofun nofun nofun
  | misalignedJump v => exact halt_inv h nofun nofun nofun nofun fun _ => hr
  | invalidSize | duplicateRegistration => exact hr.elim

theorem commit_memWf {s : State} (h : Memory.wf s.mem) (e : Effect) : Memory.wf (s.commit e).mem := by
  rw [State.commit_mem]
  cases e.mw with
  | none => exact h
  | some write => exact Memory.writeLE_wf h _ _ _

/-- The store of a commit was range-checked, so it lists nothing outside the window. -/
theorem commit_memInWindow {s : State} {e : Effect} (h : ∀ c ∈ s.mem, hasByte s.config c.1 = true) (hok : EffectOk s e) :
    ∀ c ∈ (s.commit e).mem, hasByte s.config c.1 = true := by
  intro c hc
  rw [State.commit_mem] at hc
  cases hmw : e.mw with
  | none =>
    rw [hmw] at hc
    exact h c hc
  | some write =>
    obtain ⟨addr, n, v⟩ := write
    rw [hmw] at hc
    obtain ⟨hlo, hhi⟩ := (inRange_iff _ _ _).1 (hok addr n v hmw).2
    rcases Memory.mem_writeLE hc with hc | ⟨hca, hcn⟩
    · exact h c hc
    · rw [hasByte_iff]
      omega

/-- A commit keeps the invariant: it writes no status, no entry 0, and memory in the window only. -/
theorem commit_inv {s : State} {e : Effect} (h : s.Inv) (hok : EffectOk s e) : (s.commit e).Inv where
  configWf := by simpa using h.configWf
  memWf := commit_memWf h.memWf e
  memInWindow := by simpa using commit_memInWindow h.memInWindow hok
  regZero := (s.commit_regZero e).trans h.regZero
  running := by simpa using h.running
  halted := by simpa using h.halted
  exhausted := by simpa using h.exhausted
  neverInvalidSize := by simpa using h.neverInvalidSize
  neverDuplicate := by simpa using h.neverDuplicate
  misaligned := by simpa using h.misaligned

/-- Settles O52: each of the three ends of a step keeps the invariant. -/
theorem invariantKeptByEveryStep : Obligations.InvariantKeptByEveryStep := by
  intro s t hs h
  rcases step_cases h with ⟨-, ⟨-, rfl⟩ | ⟨-, r, rfl, hr⟩ | ⟨-, e, rfl, hok⟩⟩
  · exact exhaust_inv hs
  · exact raise_inv hs hr
  · exact commit_inv hs hok

/-! ## Observe -/

/-- An address that no entry has reads as unlisted. -/
theorem read_of_forall_ne {m : Memory} {a : Nat} (h : ∀ c ∈ m, c.1 ≠ a) : Memory.read m a = Memory.unlisted := by
  induction m with
  | nil => rfl
  | cons c rest ih =>
    obtain ⟨hc, hrest⟩ := List.forall_mem_cons.1 h
    rw [Memory.read, if_neg hc]
    exact ih hrest

/-- Under the invariant a byte outside the window reads as unlisted. -/
theorem read_outside_window {s : State} (h : s.Inv) {a : Nat} (ha : ¬ hasByte s.config a = true) :
    Memory.read s.mem a = Memory.unlisted :=
  read_of_forall_ne fun c hc hca => ha (hca ▸ h.memInWindow c hc)

/-- An entry of the register file but entry 0 is what its register reads. -/
theorem regs_getElem_eq_readReg (s : State) {k : Nat} (hk : k < 31) : s.regs[k + 1] = s.readReg (BitVec.ofNat 5 (k + 1)) := by
  have htoNat : (BitVec.ofNat 5 (k + 1)).toNat = k + 1 := by
    rw [BitVec.toNat_ofNat]
    omega
  have hne : BitVec.ofNat 5 (k + 1) ≠ 0#5 := fun h => by
    rw [h] at htoNat
    cases htoNat
  simp only [readReg_of_ne_zero s hne, htoNat]

/-- Observe shows every register file entry but entry 0, which the invariant fixes. -/
theorem regs_eq_of_observe {s t : State} (hs : s.Inv) (ht : t.Inv) (h : (observe s).xs = (observe t).xs) : s.regs = t.regs := by
  have hread : ∀ k ∈ List.range 31, s.readReg (BitVec.ofNat 5 (k + 1)) = t.readReg (BitVec.ofNat 5 (k + 1)) := List.map_inj_left.1 h
  apply Vector.ext
  intro k hk
  cases k with
  | zero => exact hs.regZero.trans ht.regZero.symm
  | succ k =>
    have hk31 : k < 31 := by omega
    rw [regs_getElem_eq_readReg s hk31, regs_getElem_eq_readReg t hk31]
    exact hread k (List.mem_range.2 hk31)

/-- Observe shows every byte of the window, the invariant fixes the others, and a canonical memory is what it reads as. -/
theorem mem_eq_of_observe {s t : State} (hs : s.Inv) (ht : t.Inv) (hconfig : s.config = t.config)
    (h : (observe s).bytes = (observe t).bytes) : s.mem = t.mem := by
  refine Memory.ext_of_read hs.memWf ht.memWf fun a => ?_
  by_cases ha : hasByte s.config a = true
  · obtain ⟨hlo, hhi⟩ := (hasByte_iff _ _).1 ha
    obtain ⟨k, rfl⟩ := Nat.exists_eq_add_of_le hlo
    simp only [observe, ← hconfig] at h
    exact List.map_inj_left.1 h k (List.mem_range.2 (by omega))
  · rw [read_outside_window hs ha, read_outside_window ht (hconfig ▸ ha)]

/-- Settles O53: the fields of the state are the parameters, the register file, memory, and what Observe shows as it is. -/
theorem observationDeterminesTheState : Obligations.ObservationDeterminesTheState := by
  intro s t hs ht hconfig h
  have hregs := regs_eq_of_observe hs ht (congrArg Observation.xs h)
  have hmem := mem_eq_of_observe hs ht hconfig (congrArg Observation.bytes h)
  have hpc : s.pc = t.pc := congrArg Observation.pc h
  have hrun : s.run = t.run := congrArg Observation.run h
  have hcause : s.cause = t.cause := congrArg Observation.cause h
  have hinfo : s.info = t.info := congrArg Observation.info h
  cases s
  cases t
  rw [State.mk.injEq]
  exact ⟨hconfig, hregs, hpc, hmem, hrun, hcause, hinfo⟩

/-! ## The loaded word -/

/-- The placed code region holds the word at the PC. -/
theorem inCode_placeConfig (c : Config) (pc : Word) : inCode (placeConfig c pc) pc 4 = true := by
  unfold placeConfig
  split
  · assumption
  · simp [inCode_iff]

/-- A placed configuration meets the constraints of 00_scope.md R10 where a word fits below 2^32: the window ends at the old window's end or
the word's, whichever is higher. -/
theorem placeConfig_wf {c : Config} {pc : Word} (h : c.wf) (hfits : pc.toNat + 4 ≤ 2 ^ 32) : (placeConfig c pc).wf := by
  obtain ⟨hspace, hbase, hcode⟩ := h
  unfold placeConfig
  split
  · exact ⟨hspace, hbase, hcode⟩
  · have hlo : (BitVec.ofNat 32 (min c.memOffset.toNat pc.toNat)).toNat = min c.memOffset.toNat pc.toNat := by
      rw [BitVec.toNat_ofNat]
      exact Nat.mod_eq_of_lt (by omega)
    simp only [Config.wf, hlo]
    omega

/-- Settles O54: the loaded bytes read back as the word, from a code region that holds it. -/
theorem loadedWordIsTheNextFetch : Obligations.LoadedWordIsTheNextFetch := by
  intro s w hwf hfits
  refine ⟨?fetch, ?code, rfl, fun _ => rfl, fun h => placeConfig_wf h hfits⟩
  case fetch =>
    have hword : BitVec.ofNat 32 (w % 2 ^ 32) = BitVec.ofNat 32 w := BitVec.eq_of_toNat_eq (by simp)
    rw [fetchWord_eq_readLE, ← hword]
    exact readLE_writeLE_four hwf s.pc.toNat _
  case code => exact (fetchable_iff _).1 (inCode_placeConfig s.config s.pc)

end Sys2Proof.Proofs
end
